-- ==== Sys2Proof/Word.lean ====
section
/-! DEFINITION. The widths of the decoder's quantities (10_state.md R20) and the pixel (R21, R25). -/

namespace Sys2Proof

/-- An 8-bit byte: one stream byte, one channel of a pixel, one output byte (00_scope.md R9). -/
abbrev Byte := BitVec 8

/-- The 32-bit registers and header fields (10_state.md R20, 20_memory.md R60). -/
abbrev Word := BitVec 32

/-- The number of a colour-cache slot, 0 to 63 (10_state.md R31). -/
abbrev Slot := BitVec 6

/-- A pixel is a 4-tuple of channels; no packing into 32 bits is visible (10_state.md R25). -/
structure Pixel where
  r : Byte
  g : Byte
  b : Byte
  a : Byte
  deriving DecidableEq, Repr

end Sys2Proof
end

