-- ==== Sys2Proof/Config.lean ====
section
/-! DEFINITION. The configuration parameters of 00_scope.md R7, the constraints R8 puts on them, and the model's one
free value. The parameters' values stand in Machine/Parameters.lean. -/

namespace Sys2Proof

/-- The parameters of the block, one field each, under the names of 00_scope.md R7. They are constants of the block and
not run-time registers (70_reset_and_hazards.md R254): no step writes them. -/
structure Config where
  /-- `HDR_LEN`: the size of the header in bytes. -/
  hdrLen : Nat
  /-- `MAGIC`: the four bytes at stream offsets 0 to 3, as one big-endian word. -/
  magic : Word
  /-- `PAD_LEN`: the length of the sentinel padding in bytes. -/
  padLen : Nat
  /-- `SENTINEL`: the bytes of the trailer, in stream order. -/
  sentinel : List Byte
  /-- `PIXELS_MAX`: the global maximum pixel count. -/
  pixelsMax : Nat
  /-- `TAG_RGB`: full-byte tag of the RGB literal. -/
  tagRgb : Byte
  /-- `TAG_RGBA`: full-byte tag of the RGBA literal. -/
  tagRgba : Byte
  /-- `TAG_MASK`: the mask of the top two bits of a tag byte. -/
  tagMask : Byte
  /-- `TAG_INDEX`: the 2-bit tag of INDEX, in place under `TAG_MASK`. -/
  tagIndex : Byte
  /-- `TAG_DIFF`. -/
  tagDiff : Byte
  /-- `TAG_LUMA`. -/
  tagLuma : Byte
  /-- `TAG_RUN`. -/
  tagRun : Byte
  /-- `DIFF_BIAS`. -/
  diffBias : Nat
  /-- `LUMA_G_BIAS`. -/
  lumaGreenBias : Nat
  /-- `LUMA_RB_BIAS`. -/
  lumaRedBlueBias : Nat
  /-- `HASH_R`. -/
  hashR : Nat
  /-- `HASH_G`. -/
  hashG : Nat
  /-- `HASH_B`. -/
  hashB : Nat
  /-- `HASH_A`. -/
  hashA : Nat
  /-- `CACHE_SLOTS`: the number of colour-cache slots. -/
  cacheSlots : Nat
  /-- `RUN_FIELD_MAX`: the largest RUN field. -/
  runFieldMax : Nat
  /-- `PX_INIT`: the current pixel at decode start. -/
  pxInit : Pixel
  /-- `SEED_OPAQUE_3CH`, the OPEN parameter (92_eei_decisions.md D11). -/
  seedOpaque3Ch : Bool
  /-- `STRICT_END` (92_eei_decisions.md D15). -/
  strictEnd : Bool
  deriving DecidableEq, Repr

/-- The constraints of 00_scope.md R8 on the parameter values, which the fixed layouts of a record, of a slot number and
of the cache rely on (log 9). -/
structure Config.Wf (c : Config) : Prop where
  /-- (a): the header's length, which is that of the layout of 30_encoding.md R81. -/
  headerLength : c.hdrLen = 14
  /-- (a): the padding is the sentinel. -/
  paddingLength : c.padLen = c.sentinel.length
  /-- (b): the mask of the top two bits. -/
  mask : c.tagMask = 0xC0
  /-- (b): the four 2-bit tags stand in place under the mask. -/
  tagsInPlace : c.tagIndex &&& c.tagMask = c.tagIndex ∧ c.tagDiff &&& c.tagMask = c.tagDiff ∧
    c.tagLuma &&& c.tagMask = c.tagLuma ∧ c.tagRun &&& c.tagMask = c.tagRun
  /-- (b): they are four distinct values. -/
  tagsDistinct : [c.tagIndex, c.tagDiff, c.tagLuma, c.tagRun].Nodup
  /-- (c): the literal tags are distinct. -/
  literalsDistinct : c.tagRgb ≠ c.tagRgba
  /-- (c): both literal tags lie in the RUN class. -/
  literalsInRun : c.tagRgb &&& c.tagMask = c.tagRun ∧ c.tagRgba &&& c.tagMask = c.tagRun
  /-- (c): their 6-bit fields are 62 and 63, above every RUN field. -/
  literalsAboveRun : c.runFieldMax < (c.tagRgb.extractLsb' 0 6).toNat ∧
    c.runFieldMax < (c.tagRgba.extractLsb' 0 6).toNat
  /-- (c): the largest RUN field. -/
  runField : c.runFieldMax = 61
  /-- (d): one slot for each value of a 6-bit INDEX field. -/
  slots : c.cacheSlots = 64
  /-- (e): `width * height * 4 < 2^32` for every header that passes validation. -/
  pixelsMaxSmall : c.pixelsMax < 2 ^ 30

/-- A FREE VALUE (log 5): what the read cursor holds after the n-th `Truncated` of a pixel step. 41_pixel_step.md R136:
"the value of `p` is then unspecified". It has no body: nothing can be proved of which value it is. -/
opaque Config.freeCursor : Nat → Word

end Sys2Proof
end

