-- ==== Sys2Proof/Machine/Parameters.lean ====
section
/-! DEFINITION. The values 00_scope.md R7 gives the configuration parameters. -/

namespace Sys2Proof

/-- The column "value" of 00_scope.md R7 (decisions D2 to D11 and D15 of 92_eei_decisions.md; log 10, log 18). -/
def standardConfig : Config where
  hdrLen := 14
  magic := 0x716F6966
  padLen := 8
  sentinel := [0x00, 0x00, 0x00, 0x00, 0x00, 0x00, 0x00, 0x01]
  pixelsMax := 400000000
  tagRgb := 0xFE
  tagRgba := 0xFF
  tagMask := 0xC0
  tagIndex := 0x00
  tagDiff := 0x40
  tagLuma := 0x80
  tagRun := 0xC0
  diffBias := 2
  lumaGreenBias := 32
  lumaRedBlueBias := 8
  hashR := 3
  hashG := 5
  hashB := 7
  hashA := 11
  cacheSlots := 64
  runFieldMax := 61
  pxInit := ⟨0, 0, 0, 255⟩
  seedOpaque3Ch := false
  strictEnd := true

end Sys2Proof
end

