-- ==== Sys2Proof/Syntax.lean ====
section
/-! DEFINITION. The instructions: one constructor per row of spec/opcode_table.json. Fields are the STORED fields of the
encoding (30_encoding.md R83, R93): a delta's bias is taken off by the machine, not by the decoder. -/

namespace Sys2Proof

/-- The six chunk kinds and the two positional records (00_scope.md R1, 30_encoding.md R80). -/
inductive Instr where
  /-- RGB: three literal channels (30_encoding.md R84). -/
  | rgb (r g b : Byte)
  /-- RGBA: four literal channels (30_encoding.md R85). -/
  | rgba (r g b a : Byte)
  /-- INDEX: a cache slot (30_encoding.md R86). -/
  | index (idx : Slot)
  /-- DIFF: three stored 2-bit fields (30_encoding.md R87). -/
  | diff (dr dg db : BitVec 2)
  /-- LUMA: the stored green field, then the two stored 4-bit fields (30_encoding.md R88). -/
  | luma (dg : BitVec 6) (drDg dbDg : BitVec 4)
  /-- RUN: the stored count of additional repeats, 0 to 61 (30_encoding.md R89). -/
  | run (rl : BitVec 6)
  /-- HEADER: the record at offset 0, whatever its magic holds; a wrong magic is the error BadMagic and not another
  record (30_encoding.md R81, R102). -/
  | header (magic width height : Word) (channels colorspace : Byte)
  /-- TRAILER: the `PAD_LEN` bytes at the cursor after the last pixel, whatever they hold; a mismatch is the error
  BadPadding and not another record (30_encoding.md R82, R102). -/
  | trailer (pad : List Byte)
  deriving DecidableEq, Repr

/-- The three kinds of record of a stream, told apart by position (30_encoding.md R80). -/
inductive RecordKind where
  /-- The record at offset 0. -/
  | header
  /-- A chunk at the cursor while pixels are produced. -/
  | chunk
  /-- The record at the cursor after the last pixel. -/
  | trailer
  deriving DecidableEq, Repr

/-- Where in a stream an instruction may stand (30_encoding.md R80). -/
def Instr.recordKind : Instr → RecordKind
  | .rgb _ _ _ => .chunk
  | .rgba _ _ _ _ => .chunk
  | .index _ => .chunk
  | .diff _ _ _ => .chunk
  | .luma _ _ _ => .chunk
  | .run _ => .chunk
  | .header _ _ _ _ _ => .header
  | .trailer _ => .trailer

/-- The length in bytes (30_encoding.md R80, R83). -/
def Instr.length : Instr → Nat
  | .rgb _ _ _ => 4
  | .rgba _ _ _ _ => 5
  | .index _ => 1
  | .diff _ _ _ => 1
  | .luma _ _ _ => 2
  | .run _ => 1
  | .header _ _ _ _ _ => 14
  | .trailer pad => pad.length

end Sys2Proof
end

