-- ==== Sys2Proof/WellFormed.lean ====
section
/-! DEFINITION. Which terms of Instr are records the encoding can hold (30_encoding.md R82, R89). Field widths are types;
two checks remain. -/

namespace Sys2Proof

/-- A RUN field is at most `RUN_FIELD_MAX`, since 62 and 63 are the literal tags (30_encoding.md R89, R92); a TRAILER holds exactly
`PAD_LEN` bytes (R82). A header with illegal contents is still a HEADER record (R96, R102). -/
def Instr.wellFormed (c : Config) : Instr → Bool
  | .rgb _ _ _ => true
  | .rgba _ _ _ _ => true
  | .index _ => true
  | .diff _ _ _ => true
  | .luma _ _ _ => true
  | .run rl => rl.toNat ≤ c.runFieldMax
  | .header _ _ _ _ _ => true
  | .trailer pad => pad.length = c.padLen

end Sys2Proof
end

