-- ==== Sys2Proof/Decode.lean ====
section
/-! DEFINITION. Reading a record from stream bytes and writing one (30_encoding.md R80 to R99). A record is never an
illegal encoding (R95): the only way to be refused is to lack bytes. -/

namespace Sys2Proof

/-- Why bytes are no record: fewer remain than the record needs. -/
inductive DecodeError where
  /-- Fewer than the header's 14 bytes at offset 0 (30_encoding.md R81, 40_header.md R113). -/
  | headerCutShort
  /-- A chunk's opcode byte or a following byte is missing (41_pixel_step.md R132). -/
  | chunkCutShort
  /-- Fewer than `PAD_LEN` bytes at the cursor (46_trailer.md R202). -/
  | trailerCutShort
  deriving DecidableEq, Repr

/-- A record and the bytes after it, or why there is none. -/
abbrev Decoded := Except DecodeError (Instr × List Byte)

/-- The six chunk kinds (30_encoding.md R83). -/
inductive ChunkKind where
  | rgb
  | rgba
  | index
  | diff
  | luma
  | run
  deriving DecidableEq, Repr

/-- `Kind(b1)`, in the order of tests of 30_encoding.md R90: the whole byte first, then the top two bits. -/
def chunkKind (c : Config) (b1 : Byte) : ChunkKind :=
  if b1 = c.tagRgb then .rgb
  else if b1 = c.tagRgba then .rgba
  else if b1 &&& c.tagMask = c.tagIndex then .index
  else if b1 &&& c.tagMask = c.tagDiff then .diff
  else if b1 &&& c.tagMask = c.tagLuma then .luma
  else .run

/-- The length of a chunk, a function of its kind alone (30_encoding.md R83, R91). -/
def chunkLength : ChunkKind → Nat
  | .rgb => 4
  | .rgba => 5
  | .index => 1
  | .diff => 1
  | .luma => 2
  | .run => 1

/-- `b[hi:lo]` for the low `n` bits from `lo` on: the unsigned bit-slice of 00_scope.md R9. -/
def slice (b : Byte) (lo n : Nat) : BitVec n := b.extractLsb' lo n

/-- The fields of a chunk of a given kind, from its opcode byte and the bytes after it (30_encoding.md R84 to R89). -/
def decodeFields (b1 : Byte) : ChunkKind → List Byte → Decoded
  | .rgb, r :: g :: b :: rest => .ok (.rgb r g b, rest)
  | .rgb, _ => .error .chunkCutShort
  | .rgba, r :: g :: b :: a :: rest => .ok (.rgba r g b a, rest)
  | .rgba, _ => .error .chunkCutShort
  | .index, rest => .ok (.index (slice b1 0 6), rest)
  | .diff, rest => .ok (.diff (slice b1 4 2) (slice b1 2 2) (slice b1 0 2), rest)
  | .luma, b2 :: rest => .ok (.luma (slice b1 0 6) (slice b2 4 4) (slice b2 0 4), rest)
  | .luma, _ => .error .chunkCutShort
  | .run, rest => .ok (.run (slice b1 0 6), rest)

/-- One chunk at the front of the bytes: the kind from the opcode byte, then the fields (41_pixel_step.md R134). -/
def decodeChunk (c : Config) : List Byte → Decoded
  | [] => .error .chunkCutShort
  | b1 :: rest => decodeFields b1 (chunkKind c b1) rest

/-- `BE32` (20_memory.md R60): the first byte is the most significant. -/
def be32 (b0 b1 b2 b3 : Byte) : Word := b0 ++ b1 ++ b2 ++ b3

/-- The four bytes of a word in stream order, most significant first (20_memory.md R60). -/
def be32Bytes (w : Word) : List Byte :=
  [w.extractLsb' 24 8, w.extractLsb' 16 8, w.extractLsb' 8 8, w.extractLsb' 0 8]

/-- The HEADER record at the front of the bytes (30_encoding.md R81, 40_header.md R112). -/
def decodeHeader : List Byte → Decoded
  | m0 :: m1 :: m2 :: m3 :: w0 :: w1 :: w2 :: w3 :: h0 :: h1 :: h2 :: h3 :: ch :: cs :: rest =>
    .ok (.header (be32 m0 m1 m2 m3) (be32 w0 w1 w2 w3) (be32 h0 h1 h2 h3) ch cs, rest)
  | _ => .error .headerCutShort

/-- The TRAILER record at the front of the bytes: `PAD_LEN` of them (30_encoding.md R82). -/
def decodeTrailer (c : Config) (bytes : List Byte) : Decoded :=
  if bytes.length < c.padLen then .error .trailerCutShort
  else .ok (.trailer (bytes.take c.padLen), bytes.drop c.padLen)

/-- A record of the kind its position calls for (30_encoding.md R80: HEADER and TRAILER are recognised by where they
stand, chunks by their first byte). -/
def decode (c : Config) (k : RecordKind) (bytes : List Byte) : Decoded :=
  match k with
  | .header => decodeHeader bytes
  | .chunk => decodeChunk c bytes
  | .trailer => decodeTrailer c bytes

/-- The bytes of a record (30_encoding.md R81 to R89). -/
def encode (c : Config) : Instr → List Byte
  | .rgb r g b => [c.tagRgb, r, g, b]
  | .rgba r g b a => [c.tagRgba, r, g, b, a]
  | .index idx => [c.tagIndex ||| idx.setWidth 8]
  | .diff dr dg db => [c.tagDiff ||| (dr ++ dg ++ db).setWidth 8]
  | .luma dg drDg dbDg => [c.tagLuma ||| dg.setWidth 8, drDg ++ dbDg]
  | .run rl => [c.tagRun ||| rl.setWidth 8]
  | .header m w h ch cs => be32Bytes m ++ be32Bytes w ++ be32Bytes h ++ [ch, cs]
  | .trailer pad => pad

/-- Byte `i` of a number whose first byte is its least significant one. -/
def byteOf (w i : Nat) : Byte := BitVec.ofNat 8 (w / 256 ^ i)

/-- Which record a word of spec/opcode_table.json stands for (log 15): the table's two positional rows are told from the
chunks by their length, 112 and 64 bits, or, where only the HEADER row's 32 fixed bits are given, by their value. -/
def tableRecord (nbits w : Nat) : RecordKind :=
  if nbits = 112 then .header
  else if nbits = 64 then .trailer
  else if nbits = 32 ∧ BitVec.ofNat 32 w = standardConfig.magic then .header
  else .chunk

/-- The bytes, in stream order, of a word numbered as the table numbers it (log 15). A chunk's words are bytes, the first
in bits 7..0. The HEADER row's words are its three big-endian 32-bit fields, the magic in bits 31..0, then two bytes. The
TRAILER row is one big-endian 64-bit word. -/
def tableBytes (nbits w : Nat) : List Byte :=
  match tableRecord nbits w with
  | .chunk => [byteOf w 0, byteOf w 1, byteOf w 2, byteOf w 3, byteOf w 4]
  | .header =>
    be32Bytes (BitVec.ofNat 32 w) ++ be32Bytes (BitVec.ofNat 32 (w / 2 ^ 32)) ++
      be32Bytes (BitVec.ofNat 32 (w / 2 ^ 64)) ++ [byteOf w 12, byteOf w 13]
  | .trailer =>
    [byteOf w 7, byteOf w 6, byteOf w 5, byteOf w 4, byteOf w 3, byteOf w 2, byteOf w 1, byteOf w 0]

/-- The instruction the decoder reads from a word numbered as spec/opcode_table.json numbers it. -/
def decodeTableWord (nbits w : Nat) : Option Instr :=
  match decode standardConfig (tableRecord nbits w) (tableBytes nbits w) with
  | .ok (i, _) => some i
  | .error _ => none

end Sys2Proof
end

