-- ==== Sys2Proof/Machine/State.lean ====
section
/-! DEFINITION. The state of the decoder (10_state.md R20, R45), its phases and errors, and the reasons a step stops. -/

namespace Sys2Proof.Machine

/-- `phase`, the position of the decoder in its life cycle (10_state.md R38). -/
inductive Phase where
  /-- After hardware reset, before the first start. -/
  | idle
  /-- Start issued, header not yet validated. -/
  | header
  /-- Header valid, `pos < npx`. -/
  | pixels
  /-- All pixels produced, trailer not yet checked. -/
  | trailer
  /-- The decode succeeded and the result is valid. -/
  | done
  /-- The decode failed and `err` names why. -/
  | error
  deriving DecidableEq, Repr

/-- The seven errors (60_exceptions.md R210, R211). Each is taken by a NEXT state whose phase is ERROR. -/
inductive FormatError where
  | tooShort
  | badMagic
  | invalidWidth
  | invalidHeight
  | invalidChannels
  | badPadding
  | truncated
  deriving DecidableEq, Repr

/-- The output buffer's bytes: address and byte, addresses strictly rising. An unlisted byte is unwritten and has no
value (20_memory.md R57, log 14). -/
abbrev Memory := List Host.Cell

/-- The output pixel buffer (10_state.md R41): its length and the bytes written so far. -/
structure OutBuffer where
  len : Nat
  mem : Memory
  deriving DecidableEq, Repr

/-- The two host commands (60_exceptions.md R230). `start` carries the whole encoded input; `LEN` is its length, so a
false length cannot be stated (R232, log 2). -/
inductive HostCommand where
  | start (stream : List Byte)
  | hardReset
  deriving DecidableEq, Repr

/-- Why a step stops with a fault. -/
inductive Fault where
  /-- Raised by the step when no command is presented and the phase is IDLE, DONE or ERROR: no decoder step is enabled
  (60_exceptions.md R240, R238). Safe: the machine stands still there. -/
  | noStepEnabled
  /-- Raised by an output write when the buffer does not exist (10_state.md R44). Safe, and no reachable state raises it:
  the buffer exists from the HEADER step on. -/
  | outputAbsent
  /-- Raised by an output write outside the buffer (20_memory.md R56). Safe, and no reachable state raises it: R56 shows
  that the address is always in range. -/
  | outputOutOfRange
  deriving DecidableEq, Repr

/-- Why something has no meaning. -/
inductive Refusal where
  /-- An instruction that has no meaning in this model yet. No arm of exec raises it. Safe. -/
  | notModelled (mnemonic : String)
  /-- Raised by the start command in HEADER, PIXELS or TRAILER (60_exceptions.md R230: "not allowed; the model gives it no
  meaning (refused)"). Safe. -/
  | startDuringDecode
  /-- Raised by a start command whose stream has 2^32 bytes or more (60_exceptions.md R232, 92_eei_decisions.md D26).
  Safe. -/
  | startTooLong
  /-- Raised by a meaning that is asked to run outside the phase in which its step is enabled (00_scope.md R12; log 11).
  The step itself never does so. Safe. -/
  | notEnabled
  deriving DecidableEq, Repr

/-- The decoder's state. The fields from `px` to `out` are 10_state.md R20's list; `cfg` and `stream` are the parameters
of R45; `cmd` is the host's command port (60_exceptions.md R231); `draws` is the model's own (log 5). -/
structure State where
  /-- The configuration parameters (00_scope.md R7). -/
  cfg : Config
  /-- `Stream`; its length is `LEN`. -/
  stream : List Byte
  /-- The command the host presents, taken by the next step. -/
  cmd : Option HostCommand
  /-- The current pixel. -/
  px : Pixel
  /-- The run counter. -/
  run : BitVec 6
  /-- The read cursor. -/
  p : Word
  /-- The index of the output pixel being produced. -/
  pos : Word
  /-- The colour cache. -/
  cache : Vector Pixel 64
  width : Word
  height : Word
  channels : Byte
  colorspace : Byte
  /-- The number of pixels to produce. -/
  npx : Word
  phase : Phase
  /-- The error code; none is `ERR_NONE`. -/
  err : Option FormatError
  /-- The output buffer; none before a successful HEADER step. -/
  out : Option OutBuffer
  /-- How many free values have been drawn. -/
  draws : Nat
  deriving DecidableEq, Repr

/-- The machine after hardware reset (10_state.md R44, 70_reset_and_hazards.md R250): `phase` IDLE, `err` `ERR_NONE`, no
output buffer. The spec leaves every other register unspecified; the model names zero (log 1), an empty stream (log 2), no
command (log 3) and no draw (log 5). -/
def State.reset : State where
  cfg := standardConfig
  stream := []
  cmd := none
  px := ⟨0, 0, 0, 0⟩
  run := 0
  p := 0
  pos := 0
  cache := Vector.replicate 64 ⟨0, 0, 0, 0⟩
  width := 0
  height := 0
  channels := 0
  colorspace := 0
  npx := 0
  phase := .idle
  err := none
  out := none
  draws := 0

/-- What a step or a meaning answers. -/
abbrev Result := Host.Outcome State Fault Refusal

end Sys2Proof.Machine
end

