-- ==== Sys2Proof/Machine/Flags.lean ====
section
/-! DEFINITION. The decoder has no condition codes (10_state.md R30): the outcome is carried by `phase` and `err`. Here
stand their numeric codes and the one test a pixel step makes of its position. -/

namespace Sys2Proof.Machine

/-- The 3-bit encoding of `phase` (10_state.md R38). Values 6 and 7 are never taken. -/
def Phase.code : Phase → BitVec 3
  | .idle => 0
  | .header => 1
  | .pixels => 2
  | .trailer => 3
  | .done => 4
  | .error => 5

/-- The 3-bit code held in `err` (60_exceptions.md R211); none is `ERR_NONE`. -/
def errCode : Option FormatError → BitVec 3
  | none => 0
  | some .tooShort => 1
  | some .badMagic => 2
  | some .invalidWidth => 3
  | some .invalidHeight => 4
  | some .invalidChannels => 5
  | some .badPadding => 6
  | some .truncated => 7

/-- The phase after a pixel step at position `pos`: TRAILER when that step makes `pos = npx` (41_pixel_step.md R139). -/
def phaseAfterPixel (pos npx : Word) : Phase := if pos + 1 = npx then .trailer else .pixels

end Sys2Proof.Machine
end

