-- ==== Sys2Proof/Machine/Operands.lean ====
section
/-! DEFINITION. The operand forms of the chunks: biased deltas (30_encoding.md R93), byte arithmetic (00_scope.md R10),
the colour hash (43_index_cache.md R161), cache slots (10_state.md R31) and the literal and output order of channels. -/

namespace Sys2Proof.Machine

/-- A stored field less its bias: `zext(field) - bias` (30_encoding.md R93). -/
def unbias {n : Nat} (field : BitVec n) (bias : Nat) : Int := (field.toNat : Int) - (bias : Int)

/-- The delta of a DIFF field (44_delta.md R176). -/
def diffDelta (c : Config) (field : BitVec 2) : Int := unbias field c.diffBias

/-- The green delta `vg` of a LUMA chunk (44_delta.md R178). -/
def lumaGreenDelta (c : Config) (dg : BitVec 6) : Int := unbias dg c.lumaGreenBias

/-- The red or blue delta of a LUMA chunk: the 4-bit delta added to the green DELTA, not to the new green value
(44_delta.md R179). -/
def lumaSideDelta (c : Config) (dg : BitVec 6) (side : BitVec 4) : Int :=
  lumaGreenDelta c dg + unbias side c.lumaRedBlueBias

/-- `(old + delta) mod 256`: silent wrap-around, no saturation (44_delta.md R181, 41_pixel_step.md R142). -/
def addDelta (old : Byte) (delta : Int) : Byte := BitVec.ofInt 8 ((old.toNat : Int) + delta)

/-- The weighted sum under the hash (43_index_cache.md R161), on unbounded integers. -/
def hashSum (c : Config) (q : Pixel) : Nat :=
  c.hashR * q.r.toNat + c.hashG * q.g.toNat + c.hashB * q.b.toNat + c.hashA * q.a.toNat

/-- `Hash(r, g, b, a)`: the sum mod `CACHE_SLOTS`, a slot number (43_index_cache.md R161; R8 d of 00_scope.md makes
`CACHE_SLOTS` 64). All four channels enter in both channel modes. -/
def hash (c : Config) (q : Pixel) : Slot := BitVec.ofNat 6 (hashSum c q % c.cacheSlots)

/-- `cache[i]`: a slot is read whole (20_memory.md R59). -/
def cacheGet (cache : Vector Pixel 64) (i : Slot) : Pixel := cache[i.toNat]'(i.isLt)

/-- `cache[i] <- q`: a slot is written whole (20_memory.md R59). -/
def cacheSet (cache : Vector Pixel 64) (i : Slot) (q : Pixel) : Vector Pixel 64 := cache.set i.toNat q i.isLt

/-- The unconditional cache update of every pixel step: the slot the pixel hashes to takes the pixel, with all four
channels (41_pixel_step.md R137). -/
def cacheUpdate (c : Config) (cache : Vector Pixel 64) (q : Pixel) : Vector Pixel 64 :=
  cacheSet cache (hash c q) q

/-- What every cache slot holds when the pixels begin (10_state.md R44): (0,0,0,0), or (0,0,0,255) when
`SEED_OPAQUE_3CH` is set and `channels` is 3. -/
def cacheSeed (c : Config) (channels : Byte) : Pixel :=
  ⟨0, 0, 0, if c.seedOpaque3Ch && channels == 3 then 255 else 0⟩

/-- The bytes a pixel takes in the output buffer: r, g, b when `channels` is 3 and r, g, b, a otherwise
(41_pixel_step.md R131, R138; 20_memory.md R55). -/
def pixelBytes (channels : Byte) (q : Pixel) : List Byte :=
  if channels = 3 then [q.r, q.g, q.b] else [q.r, q.g, q.b, q.a]

/-- The output stride: 3 bytes a pixel when `channels` is 3 and 4 otherwise (41_pixel_step.md R131, R138). -/
def stride (channels : Byte) : Nat := if channels = 3 then 3 else 4

end Sys2Proof.Machine
end

