-- ==== Sys2Proof/Machine/Ops.lean ====
section
/-! DEFINITION. The named operations over memory and registers: the output buffer, taking an error, and what all six
chunks share (41_pixel_step.md R131). -/

namespace Sys2Proof.Machine

/-- The value of one output byte; none when it is unwritten (20_memory.md R57). -/
def Memory.read : Memory → Nat → Option Byte
  | [], _ => none
  | (b, w) :: m, a => if a = b then some w else Memory.read m a

/-- Writing one byte keeps the addresses strictly rising. -/
def Memory.write : Memory → Nat → Byte → Memory
  | [], a, v => [(a, v)]
  | (b, w) :: m, a, v =>
    if a < b then (a, v) :: (b, w) :: m
    else if a = b then (a, v) :: m
    else (b, w) :: Memory.write m a v

/-- Writing bytes at consecutive addresses, the first at the lowest (20_memory.md R56). -/
def Memory.writeBytes : Memory → Nat → List Byte → Memory
  | m, _, [] => m
  | m, a, v :: vs => Memory.writeBytes (Memory.write m a v) (a + 1) vs

/-- The canonical form: addresses strictly rising. An unlisted byte is unwritten, which no listed entry can equal. -/
abbrev Memory.wf (m : Memory) : Prop := (m.map Prod.fst).Pairwise (· < ·)

/-- The canonical form of a buffer: its bytes are canonical and lie inside it. -/
abbrev OutBuffer.wf (b : OutBuffer) : Prop := Memory.wf b.mem ∧ ∀ e ∈ b.mem, e.1 < b.len

/-- `MemWrite(addr, n, v)` (20_memory.md R56). An address outside the buffer does not exist: the model faults (log 12). -/
def memWrite (out : Option OutBuffer) (addr : Nat) (bytes : List Byte) : Except Fault OutBuffer :=
  match out with
  | none => .error .outputAbsent
  | some b =>
    if addr + bytes.length ≤ b.len then .ok { b with mem := Memory.writeBytes b.mem addr bytes }
    else .error .outputOutOfRange

/-- The value of byte `a` of the output buffer; none where it is unwritten or does not exist. -/
def State.outByte (s : State) (a : Nat) : Option Byte := s.out.bind fun b => Memory.read b.mem a

/-- `LEN`, the length of the stream (10_state.md R45). -/
def State.len (s : State) : Nat := s.stream.length

/-- The stream bytes from the read cursor to the end of the stream. What `Fetch` can read is what this list holds: its end
is `LEN`, not the end of the chunk region (20_memory.md R52, R73). -/
def State.fromCursor (s : State) : List Byte := s.stream.drop s.p.toNat

/-- TAKING AN ERROR, `raise E` (60_exceptions.md R213): `phase <- ERROR`, `err <- E`, nothing else of the step is
committed. There is no handler, no saved cursor and no way back (R217). In a pixel step the error is `Truncated` out of
`Fetch`, and the cursor is then unspecified (41_pixel_step.md R136): it takes a free value (log 5). -/
def raise (e : FormatError) (s : State) : State :=
  if s.phase = .pixels then
    { s with phase := .error, err := some e, p := Config.freeCursor s.draws, draws := s.draws + 1 }
  else { s with phase := .error, err := some e }

/-- The state after a pixel step that produced `q` from `n` stream bytes and wrote `out` (41_pixel_step.md R131: commit
and advance). -/
def State.afterPixel (s : State) (q : Pixel) (run : BitVec 6) (n : Nat) (out : OutBuffer) : State :=
  { s with
    px := q
    run := run
    p := s.p + BitVec.ofNat 32 n
    cache := cacheUpdate s.cfg s.cache q
    out := some out
    pos := s.pos + 1
    phase := phaseAfterPixel s.pos s.npx }

/-- Parts (3) and (4) of a pixel step and its commit (41_pixel_step.md R137 to R139): the cache update, the output write
at `pos * channels`, the advance. -/
def commitPixel (s : State) (q : Pixel) (run : BitVec 6) (n : Nat) : Result :=
  match memWrite s.out (s.pos.toNat * stride s.channels) (pixelBytes s.channels q) with
  | .error f => .fault f
  | .ok out => .next (s.afterPixel q run n out)

/-- A pixel step that executes a chunk of `n` bytes standing at the cursor and gives `q` and `run` (41_pixel_step.md
R131). It is enabled in PIXELS only (log 11). A chunk that reaches past `LEN` raises `Truncated` at the first `Fetch` out
of bounds and commits nothing (R132, R136). -/
def chunkStep (s : State) (n : Nat) (q : Pixel) (run : BitVec 6) : Result :=
  if s.phase ≠ .pixels then .refused .notEnabled
  else if s.len < s.p.toNat + n then .next (raise .truncated s)
  else commitPixel s q run n

end Sys2Proof.Machine
end

