-- ==== Sys2Proof/Machine/Delta.lean ====
section
/-! DEFINITION. The delta chunks DIFF and LUMA (44_delta.md R175 to R182). -/

namespace Sys2Proof.Machine

/-- DIFF adds three deltas to the old r, g, b; alpha unchanged (44_delta.md R176). -/
def diffPixel (c : Config) (old : Pixel) (dr dg db : BitVec 2) : Pixel :=
  ⟨addDelta old.r (diffDelta c dr), addDelta old.g (diffDelta c dg), addDelta old.b (diffDelta c db), old.a⟩

/-- LUMA adds the green delta to the old green and the combined deltas to the old red and blue; alpha unchanged
(44_delta.md R178, R179). -/
def lumaPixel (c : Config) (old : Pixel) (dg : BitVec 6) (drDg dbDg : BitVec 4) : Pixel :=
  ⟨addDelta old.r (lumaSideDelta c dg drDg), addDelta old.g (lumaGreenDelta c dg),
    addDelta old.b (lumaSideDelta c dg dbDg), old.a⟩

/-- DIFF (44_delta.md R176). -/
def execDiff (dr dg db : BitVec 2) (s : State) : Result := chunkStep s 1 (diffPixel s.cfg s.px dr dg db) 0

/-- LUMA (44_delta.md R178). -/
def execLuma (dg : BitVec 6) (drDg dbDg : BitVec 4) (s : State) : Result :=
  chunkStep s 2 (lumaPixel s.cfg s.px dg drDg dbDg) 0

end Sys2Proof.Machine
end

