-- ==== Sys2Proof/Machine/Header.lean ====
section
/-! DEFINITION. The HEADER step (40_header.md R110 to R121). -/

namespace Sys2Proof.Machine

/-- The five checks in their order (40_header.md R111, R120); the first that fails is the error. The colour-space byte is
not checked (R118). -/
def headerError (c : Config) (len : Nat) (magic width height : Word) (channels : Byte) : Option FormatError :=
  if len < c.hdrLen + c.padLen then some .tooShort
  else if magic ≠ c.magic then some .badMagic
  else if width = 0 then some .invalidWidth
  else if height = 0 ∨ c.pixelsMax / width.toNat ≤ height.toNat then some .invalidHeight
  else if channels ≠ 3 ∧ channels ≠ 4 then some .invalidChannels
  else none

/-- The state after a HEADER step that passes (40_header.md R111; 10_state.md R44, third column): the header latched,
`npx` the product, everything the pixel steps use initialised. -/
def latchHeader (width height : Word) (channels colorspace : Byte) (s : State) : State :=
  { s with
    width := width
    height := height
    channels := channels
    colorspace := colorspace
    npx := width * height
    px := s.cfg.pxInit
    run := 0
    cache := Vector.replicate 64 (cacheSeed s.cfg channels)
    out := some { len := (width * height).toNat * channels.toNat, mem := [] }
    pos := 0
    p := BitVec.ofNat 32 s.cfg.hdrLen
    phase := .pixels }

/-- HEADER (40_header.md R111). Enabled in HEADER only (log 11). -/
def execHeader (magic width height : Word) (channels colorspace : Byte) (s : State) : Result :=
  if s.phase ≠ .header then .refused .notEnabled
  else
    match headerError s.cfg s.len magic width height channels with
    | some e => .next (raise e s)
    | none => .next (latchHeader width height channels colorspace s)

end Sys2Proof.Machine
end

