-- ==== Sys2Proof/Machine/IndexCache.lean ====
section
/-! DEFINITION. The INDEX chunk (43_index_cache.md R163 to R168). -/

namespace Sys2Proof.Machine

/-- INDEX (43_index_cache.md R163): the pixel becomes the slot's pixel, all four channels, as the cache stood at the start
of the step. A slot that no produced pixel has written gives its seed (R164); there is no miss. -/
def execIndex (idx : Slot) (s : State) : Result := chunkStep s 1 (cacheGet s.cache idx) 0

end Sys2Proof.Machine
end

