-- ==== Sys2Proof/Machine/Literal.lean ====
section
/-! DEFINITION. The literal chunks RGB and RGBA (42_literal.md R150 to R153). -/

namespace Sys2Proof.Machine

/-- RGB gives new r, g, b and leaves alpha (42_literal.md R151). -/
def rgbPixel (old : Pixel) (r g b : Byte) : Pixel := ⟨r, g, b, old.a⟩

/-- RGBA gives all four channels, in both channel modes (42_literal.md R152). -/
def rgbaPixel (r g b a : Byte) : Pixel := ⟨r, g, b, a⟩

/-- RGB (42_literal.md R151). -/
def execRgb (r g b : Byte) (s : State) : Result := chunkStep s 4 (rgbPixel s.px r g b) 0

/-- RGBA (42_literal.md R152). -/
def execRgba (r g b a : Byte) (s : State) : Result := chunkStep s 5 (rgbaPixel r g b a) 0

end Sys2Proof.Machine
end

