-- ==== Sys2Proof/Machine/Run.lean ====
section
/-! DEFINITION. The RUN chunk and the run carry-over (45_run.md R190 to R196). -/

namespace Sys2Proof.Machine

/-- RUN (45_run.md R191): the pixel of the step before once more, and `rl` additional repeats pending. -/
def execRun (rl : BitVec 6) (s : State) : Result := chunkStep s 1 s.px rl

/-- The pixel step that finds `run > 0` (45_run.md R193): the same pixel, one repeat fewer, no byte read, the cursor
unmoved; it raises nothing. -/
def carryOver (s : State) : Result := commitPixel s s.px (s.run - 1) 0

end Sys2Proof.Machine
end

