-- ==== Sys2Proof/Machine/Trailer.lean ====
section
/-! DEFINITION. The TRAILER step (46_trailer.md R200 to R205). -/

namespace Sys2Proof.Machine

/-- The checks of the TRAILER step in their order (46_trailer.md R201), on the cursor, the length and the bytes at the
cursor. -/
def trailerError (c : Config) (p len : Nat) (pad : List Byte) : Option FormatError :=
  if len < p + c.padLen then some .truncated
  else if c.strictEnd ∧ p + c.padLen < len then some .badPadding
  else if pad ≠ c.sentinel then some .badPadding
  else none

/-- TRAILER (46_trailer.md R201): on success `phase <- DONE` and nothing else; the cursor does not move. Enabled in
TRAILER only (log 11). -/
def execTrailer (pad : List Byte) (s : State) : Result :=
  if s.phase ≠ .trailer then .refused .notEnabled
  else
    match trailerError s.cfg s.p.toNat s.len pad with
    | some e => .next (raise e s)
    | none => .next { s with phase := .done }

end Sys2Proof.Machine
end

