-- ==== Sys2Proof/Machine/Dispatch.lean ====
section
/-! DEFINITION. The dispatch of an instruction to its meaning (41_pixel_step.md R134). -/

namespace Sys2Proof.Machine

def exec (i : Instr) (s : State) : Host.Outcome State Fault Refusal :=
  match i with
  | .rgb r g b => Sys2Proof.Machine.execRgb r g b s
  | .rgba r g b a => Sys2Proof.Machine.execRgba r g b a s
  | .index idx => Sys2Proof.Machine.execIndex idx s
  | .diff dr dg db => Sys2Proof.Machine.execDiff dr dg db s
  | .luma dg drDg dbDg => Sys2Proof.Machine.execLuma dg drDg dbDg s
  | .run rl => Sys2Proof.Machine.execRun rl s
  | .header magic width height channels colorspace => Sys2Proof.Machine.execHeader magic width height channels colorspace s
  | .trailer pad => Sys2Proof.Machine.execTrailer pad s

end Sys2Proof.Machine
end

