-- ==== Sys2Proof/Machine/Fetch.lean ====
section
/-! DEFINITION. What the decoder's next step works on (00_scope.md R12, 41_pixel_step.md R131, R134), and how a word of
the opcode table is placed where the next step fetches it. -/

namespace Sys2Proof.Machine

/-- What a step of the decoder finds to do. -/
inductive Fetched where
  /-- A record decoded from the stream, to be executed. -/
  | record (i : Instr)
  /-- A pixel step with `run > 0`: no record (45_run.md R193). -/
  | carryOver
  /-- The stream lacks the record's bytes: this error is taken. -/
  | failed (e : FormatError)
  /-- No decoder step is enabled (60_exceptions.md R240). -/
  | halted
  deriving DecidableEq, Repr

/-- The error of bytes that are no record: `TooShort` for the header (40_header.md R113: fewer than 14 bytes are fewer
than 14 and the padding), `Truncated` for a chunk and for the trailer (41_pixel_step.md R132, 46_trailer.md R202). -/
def DecodeError.toFormatError : DecodeError → FormatError
  | .headerCutShort => .tooShort
  | .chunkCutShort => .truncated
  | .trailerCutShort => .truncated

/-- A decoded record is executed; bytes that are none raise their error. -/
def Fetched.ofDecoded : Decoded → Fetched
  | .ok (i, _) => .record i
  | .error e => .failed (DecodeError.toFormatError e)

/-- The record the next step executes. HEADER reads from stream offset 0 (40_header.md R111), a chunk and the TRAILER from
the cursor; a chunk is fetched only when `run` is 0 (41_pixel_step.md R131). -/
def fetch (s : State) : Fetched :=
  match s.phase with
  | .idle => .halted
  | .header => .ofDecoded (decode s.cfg .header s.stream)
  | .pixels => if s.run = 0 then .ofDecoded (decode s.cfg .chunk s.fromCursor) else .carryOver
  | .trailer => .ofDecoded (decode s.cfg .trailer s.fromCursor)
  | .done => .halted
  | .error => .halted

/-- A stream with bytes laid over it from an offset on; a gap before the offset is filled with zeros. -/
def overlay (stream : List Byte) (offset : Nat) (bytes : List Byte) : List Byte :=
  (stream ++ List.replicate (offset - stream.length) 0).take offset ++ bytes ++ stream.drop (offset + bytes.length)

/-- The stream, padded with zeros to at least `n` bytes. -/
def padTo (n : Nat) (stream : List Byte) : List Byte := stream ++ List.replicate (n - stream.length) 0

/-- A state whose next step fetches a chunk standing at its cursor: no command, PIXELS, no run pending, a channel count,
one more pixel to produce and room for it (log 16). What already holds is kept. -/
def readyForChunk (s : State) : State :=
  let ch : Byte := if s.channels = 3 ∨ s.channels = 4 then s.channels else 4
  let npx : Word := if s.pos < s.npx then s.npx else s.pos + 1
  let size := npx.toNat * stride ch
  let out : OutBuffer :=
    match s.out with
    | some b => if size ≤ b.len then b else { b with len := size }
    | none => { len := size, mem := [] }
  { s with cmd := none, phase := .pixels, run := 0, channels := ch, npx := npx, out := some out }

/-- The state with a word of the opcode table placed where its next step fetches (log 16): a chunk at the cursor in
PIXELS, the HEADER at offset 0 in HEADER with the stream long enough to be a stream (40_header.md R113), the TRAILER at
the cursor in TRAILER. -/
def placeWord (s : State) (nbits w : Nat) : State :=
  let bytes := tableBytes nbits w
  match tableRecord nbits w with
  | .chunk => readyForChunk { s with stream := overlay s.stream s.p.toNat bytes }
  | .header =>
    { s with
      cmd := none
      phase := .header
      stream := padTo (s.cfg.hdrLen + s.cfg.padLen) (overlay s.stream 0 bytes) }
  | .trailer => { s with cmd := none, phase := .trailer, stream := overlay s.stream s.p.toNat bytes }

end Sys2Proof.Machine
end

