-- ==== Sys2Proof/Machine/HostInterface.lean ====
section
/-! DEFINITION. The host's two commands (60_exceptions.md R230) and what it may read (20_memory.md R58, 60_exceptions.md
R231, R232). -/

namespace Sys2Proof.Machine

/-- Hardware reset (70_reset_and_hazards.md R250): `phase` IDLE, `err` `ERR_NONE`; a decode in progress is abandoned. The
registers it leaves unspecified take the values of State.reset (log 8), no output buffer exists (10_state.md R44, log 22),
the block's parameters stay. -/
def hardReset (s : State) : State := { State.reset with cfg := s.cfg, draws := s.draws }

/-- The start step (70_reset_and_hazards.md R252): binds the stream, `err <- ERR_NONE`, `p <- 0`, `phase <- HEADER`. No
output buffer exists until the HEADER step makes one (10_state.md R44, R41; log 7). The rest stays as it is. -/
def startStep (stream : List Byte) (s : State) : State :=
  { s with stream := stream, cmd := none, err := none, p := 0, phase := .header, out := none }

/-- The phases in which `start` is allowed (60_exceptions.md R230). -/
def Phase.canStart : Phase → Bool
  | .idle => true
  | .header => false
  | .pixels => false
  | .trailer => false
  | .done => true
  | .error => true

/-- A command taken by a step (60_exceptions.md R230): reset at any time; `start` in IDLE, DONE or ERROR, refused during a
decode and for a stream of 2^32 bytes or more (R232). -/
def takeCommand (c : HostCommand) (s : State) : Result :=
  match c with
  | .hardReset => .next (hardReset s)
  | .start stream =>
    if !s.phase.canStart then .refused .startDuringDecode
    else if 2 ^ 32 ≤ stream.length then .refused .startTooLong
    else .next (startStep stream s)

/-- The host presents a command between two steps (log 3). -/
def State.present (s : State) (c : HostCommand) : State := { s with cmd := some c }

/-- The status the host may read at any time (60_exceptions.md R231). -/
def State.status (s : State) : Phase × Option FormatError := (s.phase, s.err)

/-- The decoded image: the four header values and the pixel bytes (20_memory.md R58, 41_pixel_step.md R143). -/
structure Image where
  width : Word
  height : Word
  channels : Byte
  colorspace : Byte
  pixels : List Byte
  deriving DecidableEq, Repr

/-- The first `n` bytes from address `a` on, when all of them are written (20_memory.md R57: an unwritten byte has no
value and is not read). -/
def readBytes (m : Memory) (a : Nat) : Nat → Option (List Byte)
  | 0 => some []
  | n + 1 =>
    match Memory.read m a, readBytes m (a + 1) n with
    | some v, some vs => some (v :: vs)
    | _, _ => none

/-- What the entry point returns (20_memory.md R58, 60_exceptions.md R214): at DONE the image, at ERROR the error kind and
nothing else, in any other phase nothing. -/
def State.answer (s : State) : Option (Except FormatError Image) :=
  match s.phase with
  | .done =>
    match s.out with
    | none => none
    | some b =>
      match readBytes b.mem 0 b.len with
      | none => none
      | some bytes => some (.ok ⟨s.width, s.height, s.channels, s.colorspace, bytes⟩)
  | .error =>
    match s.err with
    | none => none
    | some e => some (.error e)
  | .idle => none
  | .header => none
  | .pixels => none
  | .trailer => none

end Sys2Proof.Machine
end

