-- ==== Sys2Proof/Machine/Step.lean ====
section
/-! DEFINITION. One step of the machine (00_scope.md R12): a presented host command is taken; else the decoder's enabled
step is run. -/

namespace Sys2Proof.Machine

/-- One step. A command the host presents is taken first (log 3); else the record the phase calls for is executed, or a
run is carried over, or the missing bytes raise their error, or nothing is enabled. -/
def step (s : State) : Host.Outcome State Fault Refusal :=
  match s.cmd with
  | some c => takeCommand c s
  | none =>
    match fetch s with
    | .record i => exec i s
    | .carryOver => carryOver s
    | .failed e => .next (raise e s)
    | .halted => .fault .noStepEnabled

/-- A word of the opcode table placed where the next step fetches its instruction (log 16). -/
def State.withFetchWord (s : State) (nbits w : Nat) : State := placeWord s nbits w

end Sys2Proof.Machine
end

