-- ==== Sys2Proof/Machine/Assembler.lean ====
section
/-! DEFINITION. The operands of the spec's own assembler syntax (30_encoding.md R100, R101; log 21): signed operands are
the decoded deltas, the operand of RUN is the stored field. -/

namespace Sys2Proof.Machine

/-- A line of 30_encoding.md R100, its operands as numbers. -/
inductive AsmLine where
  | rgb (r g b : Nat)
  | rgba (r g b a : Nat)
  | index (idx : Nat)
  | diff (dr dg db : Int)
  | luma (dg drDg dbDg : Int)
  | run (rl : Nat)
  /-- The directive `.header`. -/
  | header (width height channels colorspace : Nat)
  /-- The directive `.end`. -/
  | endMark
  deriving DecidableEq, Repr

/-- An unsigned operand that fits its field. -/
def asmField (n v : Nat) : Option (BitVec n) := if v < 2 ^ n then some (BitVec.ofNat n v) else none

/-- A decoded delta as the stored field: the delta plus its bias (30_encoding.md R93, R100). -/
def asmDelta (n bias : Nat) (d : Int) : Option (BitVec n) :=
  if 0 ≤ d + bias then asmField n (d + bias).toNat else none

/-- The record a line stands for; none when an operand is out of the range R100 gives it. For `.header` R100 says only
"see rule R81": DESIGN CHOICE (log 21), it takes every operand that fits its field, also one that R81 does not list as
legal (width 0, channels 7). -/
def assemble (c : Config) : AsmLine → Option Instr
  | .rgb r g b =>
    match asmField 8 r, asmField 8 g, asmField 8 b with
    | some r, some g, some b => some (.rgb r g b)
    | _, _, _ => none
  | .rgba r g b a =>
    match asmField 8 r, asmField 8 g, asmField 8 b, asmField 8 a with
    | some r, some g, some b, some a => some (.rgba r g b a)
    | _, _, _, _ => none
  | .index idx => (asmField 6 idx).map .index
  | .diff dr dg db =>
    match asmDelta 2 c.diffBias dr, asmDelta 2 c.diffBias dg, asmDelta 2 c.diffBias db with
    | some dr, some dg, some db => some (.diff dr dg db)
    | _, _, _ => none
  | .luma dg drDg dbDg =>
    match asmDelta 6 c.lumaGreenBias dg, asmDelta 4 c.lumaRedBlueBias drDg, asmDelta 4 c.lumaRedBlueBias dbDg with
    | some dg, some drDg, some dbDg => some (.luma dg drDg dbDg)
    | _, _, _ => none
  | .run rl => if rl ≤ c.runFieldMax then (asmField 6 rl).map .run else none
  | .header w h ch cs =>
    match asmField 32 w, asmField 32 h, asmField 8 ch, asmField 8 cs with
    | some w, some h, some ch, some cs => some (.header c.magic w h ch cs)
    | _, _, _, _ => none
  | .endMark => some (.trailer c.sentinel)

/-- The bytes of a whole program, line by line (30_encoding.md R80, R100). -/
def assembleProgram (c : Config) : List AsmLine → Option (List Byte)
  | [] => some []
  | l :: ls =>
    match assemble c l, assembleProgram c ls with
    | some i, some bytes => some (encode c i ++ bytes)
    | _, _ => none

end Sys2Proof.Machine
end

