-- ==== Sys2Proof/Machine/WholeDecode.lean ====
section
/-! DEFINITION. The whole decode as one function of the stream (41_pixel_step.md R143), without the machine's registers:
the clear description that the step machine's result is held against. -/

namespace Sys2Proof.Machine

/-- The state threaded through the pixels (10_state.md R20: "the per-pixel mutable state (current pixel, run counter,
cache)") and the bytes not yet read. -/
structure PixelLoop where
  px : Pixel
  run : BitVec 6
  cache : Vector Pixel 64
  rest : List Byte
  deriving DecidableEq, Repr

/-- The new pixel and run counter a chunk gives, from the old pixel and the cache alone (41_pixel_step.md R135); the two
positional records are no chunks and give the old pixel. -/
def chunkEffect (c : Config) (old : Pixel) (cache : Vector Pixel 64) : Instr → Pixel × BitVec 6
  | .rgb r g b => (rgbPixel old r g b, 0)
  | .rgba r g b a => (rgbaPixel r g b a, 0)
  | .index idx => (cacheGet cache idx, 0)
  | .diff dr dg db => (diffPixel c old dr dg db, 0)
  | .luma dg drDg dbDg => (lumaPixel c old dg drDg dbDg, 0)
  | .run rl => (old, rl)
  | .header _ _ _ _ _ => (old, 0)
  | .trailer _ => (old, 0)

/-- One pixel (41_pixel_step.md R131): the run test, else fetch and execute; then the cache update. -/
def loopPixel (c : Config) (l : PixelLoop) : Except FormatError PixelLoop :=
  if l.run = 0 then
    match decodeChunk c l.rest with
    | .error _ => .error .truncated
    | .ok (i, rest) =>
      let (q, run) := chunkEffect c l.px l.cache i
      .ok { px := q, run := run, cache := cacheUpdate c l.cache q, rest := rest }
  else .ok { l with run := l.run - 1, cache := cacheUpdate c l.cache l.px }

/-- `repeat n times: PixelStep` (41_pixel_step.md R143): the pixels in order, and what is left. -/
def loopPixels (c : Config) : Nat → PixelLoop → Except FormatError (List Pixel × PixelLoop)
  | 0, l => .ok ([], l)
  | n + 1, l =>
    match loopPixel c l with
    | .error e => .error e
    | .ok l' =>
      match loopPixels c n l' with
      | .error e => .error e
      | .ok (ps, l'') => .ok (l'.px :: ps, l'')

/-- What the pixels begin with (70_reset_and_hazards.md R253). -/
def loopStart (c : Config) (channels : Byte) (rest : List Byte) : PixelLoop where
  px := c.pxInit
  run := 0
  cache := Vector.replicate 64 (cacheSeed c channels)
  rest := rest

/-- `Decode(Stream, LEN)` (41_pixel_step.md R143). -/
def wholeDecode (c : Config) (stream : List Byte) : Except FormatError Image :=
  match decodeHeader stream with
  | .ok (.header magic w h ch cs, rest) =>
    match headerError c stream.length magic w h ch with
    | some e => .error e
    | none =>
      match loopPixels c (w.toNat * h.toNat) (loopStart c ch rest) with
      | .error e => .error e
      | .ok (ps, l) =>
        match trailerError c (stream.length - l.rest.length) stream.length (l.rest.take c.padLen) with
        | some e => .error e
        | none => .ok ⟨w, h, ch, cs, ps.flatMap (pixelBytes ch)⟩
  | _ => .error .tooShort

end Sys2Proof.Machine
end

