-- ==== Sys2Proof/Safety.lean ====
section
/-! DEFINITION. The terms claims are stated in: what a pixel step produces, what taking an error leaves, the invariant of
the machine, and what a state needs so that a pixel step completes. -/

namespace Sys2Proof.Machine

/-- The registers no pixel step and no error writes: parameters, command port, latched header (10_state.md R35 to R37, R40,
R45). -/
structure State.SameHeader (s t : State) : Prop where
  cfg : t.cfg = s.cfg
  stream : t.stream = s.stream
  cmd : t.cmd = s.cmd
  width : t.width = s.width
  height : t.height = s.height
  channels : t.channels = s.channels
  colorspace : t.colorspace = s.colorspace
  npx : t.npx = s.npx

/-- What a pixel step that produces the pixel `q` from `n` stream bytes does, and all it does (41_pixel_step.md R131, R137
to R139): frame included. -/
structure PixelProduced (s t : State) (q : Pixel) (run : BitVec 6) (n : Nat) : Prop where
  /-- The current pixel and the run counter. -/
  px : t.px = q
  run : t.run = run
  /-- The cursor moves over the bytes consumed. -/
  cursor : t.p.toNat = s.p.toNat + n
  position : t.pos.toNat = s.pos.toNat + 1
  /-- Exactly one cache slot is written, the one the pixel hashes to, with all four channels. -/
  slot : cacheGet t.cache (hash s.cfg q) = q
  otherSlots : ∀ i, i ≠ hash s.cfg q → cacheGet t.cache i = cacheGet s.cache i
  /-- The pixel's bytes stand at `pos * channels`; every other output byte reads as before. -/
  bytes : ∀ k, k < stride s.channels →
    t.outByte (s.pos.toNat * stride s.channels + k) = (pixelBytes s.channels q)[k]?
  otherBytes : ∀ a, a < s.pos.toNat * stride s.channels ∨ s.pos.toNat * stride s.channels + stride s.channels ≤ a →
    t.outByte a = s.outByte a
  size : t.out.map OutBuffer.len = s.out.map OutBuffer.len
  /-- TRAILER when the step makes `pos = npx`, else still PIXELS. -/
  phase : t.phase = if s.pos.toNat + 1 = s.npx.toNat then .trailer else .pixels
  err : t.err = s.err
  draws : t.draws = s.draws
  header : s.SameHeader t

/-- What taking the error `e` leaves (60_exceptions.md R213): phase and code, and nothing else of the step. The cursor is
unspecified after an error of a pixel step (41_pixel_step.md R136) and unmoved after any other. -/
structure ErrorTaken (s t : State) (e : FormatError) : Prop where
  phase : t.phase = .error
  err : t.err = some e
  px : t.px = s.px
  run : t.run = s.run
  pos : t.pos = s.pos
  cache : t.cache = s.cache
  out : t.out = s.out
  cursor : s.phase ≠ .pixels → t.p = s.p
  header : s.SameHeader t

/-- What a pixel step needs so that it completes: it is enabled (41_pixel_step.md R131: PIXELS, hence `pos < npx`), the
stream's length is one a start admits (10_state.md R45), and the output buffer has the pixel's bytes (20_memory.md
R56). -/
structure State.CanProduce (s : State) : Prop where
  phase : s.phase = .pixels
  len : s.len < 2 ^ 32
  pos : s.pos.toNat < s.npx.toNat
  room : ∃ b, s.out = some b ∧ s.pos.toNat * stride s.channels + stride s.channels ≤ b.len

/-- The contents an image header must have to pass (40_header.md R113 to R117). -/
structure HeaderPasses (c : Config) (len : Nat) (magic width height : Word) (channels : Byte) : Prop where
  lengthOk : c.hdrLen + c.padLen ≤ len
  magicOk : magic = c.magic
  widthOk : 1 ≤ width.toNat
  heightOk : 1 ≤ height.toNat ∧ height.toNat < c.pixelsMax / width.toNat
  channelsOk : channels = 3 ∨ channels = 4

/-- What holds from the HEADER step on (10_state.md R32, R35, R36, R40, R41, R46). -/
structure State.Latched (s : State) : Prop where
  width : 1 ≤ s.width.toNat
  height : 1 ≤ s.height.toNat ∧ s.height.toNat < s.cfg.pixelsMax / s.width.toNat
  channels : s.channels = 3 ∨ s.channels = 4
  npx : s.npx.toNat = s.width.toNat * s.height.toNat
  npxBounds : 1 ≤ s.npx.toNat ∧ s.npx.toNat < s.cfg.pixelsMax
  cursor : s.cfg.hdrLen ≤ s.p.toNat ∧ s.p.toNat ≤ s.len
  /-- A slot holds its seed or a pixel that hashes to it. -/
  slots : ∀ i, cacheGet s.cache i = cacheSeed s.cfg s.channels ∨ hash s.cfg (cacheGet s.cache i) = i
  /-- The buffer has `npx * channels` bytes; those of the positions produced are written and the rest unwritten. -/
  out : ∃ b, s.out = some b ∧ b.len = s.npx.toNat * s.channels.toNat ∧
    ∀ a, (Memory.read b.mem a).isSome ↔ a < s.pos.toNat * s.channels.toNat

/-- The invariant of the machine (10_state.md R46, and what R38 to R41, R44 and R45 say of the other phases). -/
structure State.Inv (s : State) : Prop where
  cfg : s.cfg.Wf
  /-- `LEN < 2^32` (10_state.md R45). -/
  len : s.len < 2 ^ 32
  /-- An error code stands in `err` in phase ERROR and in no other (93_implementation_defined.md U16). -/
  err : s.err.isSome ↔ s.phase = .error
  /-- `0 <= run <= 61` (45_run.md R196). -/
  run : s.run.toNat ≤ s.cfg.runFieldMax
  /-- In HEADER the cursor is 0 (10_state.md R44). -/
  start : s.phase = .header → s.p = 0
  /-- No buffer exists before a successful HEADER step (10_state.md R44). -/
  noOut : s.phase = .idle ∨ s.phase = .header → s.out = none
  /-- The output memory keeps its canonical form. -/
  outWf : ∀ b, s.out = some b → b.wf
  latched : s.phase = .pixels ∨ s.phase = .trailer ∨ s.phase = .done → s.Latched
  /-- `pos < npx` in PIXELS. -/
  before : s.phase = .pixels → s.pos.toNat < s.npx.toNat
  /-- `pos = npx` from TRAILER on. -/
  after : s.phase = .trailer ∨ s.phase = .done → s.pos.toNat = s.npx.toNat

/-- A decode is over (60_exceptions.md R240). -/
def State.Over (s : State) : Prop := s.phase = .done ∨ s.phase = .error

/-- A decode is in progress: a decoder step is enabled (60_exceptions.md R230, 70_reset_and_hazards.md R267). -/
def State.Decoding (s : State) : Prop := s.phase = .header ∨ s.phase = .pixels ∨ s.phase = .trailer

/-- The most steps a decode has left (70_reset_and_hazards.md R267): from HEADER `npx + 2 <= PIXELS_MAX + 1`, from PIXELS
one for each pixel and the trailer's, from TRAILER that one. -/
def State.stepsLeft (s : State) : Nat :=
  match s.phase with
  | .idle => 0
  | .header => s.cfg.pixelsMax + 1
  | .pixels => s.npx.toNat - s.pos.toNat + 1
  | .trailer => 1
  | .done => 0
  | .error => 0

/-- `n` steps, stopping at the first fault or refusal: `Host.Core.run` of the machine, over the model's own types. -/
def steps : Nat → State → Result
  | 0, s => .next s
  | n + 1, s =>
    match step s with
    | .next t => steps n t
    | .fault r => .fault r
    | .refused r => .refused r

/-- The pixels the next `n` steps produce, in order: the current pixel after each pixel step that raises no error. -/
def pixelsProduced : Nat → State → List Pixel
  | 0, _ => []
  | n + 1, s =>
    match step s with
    | .next t =>
      if s.phase = .pixels ∧ t.phase ≠ .error then t.px :: pixelsProduced n t else pixelsProduced n t
    | .fault _ => []
    | .refused _ => []

/-- The last pixel of a list that hashes to slot `i`, or the slot's earlier value (10_state.md R32). -/
def lastInSlot (c : Config) (i : Slot) (earlier : Pixel) (produced : List Pixel) : Pixel :=
  produced.foldl (fun held q => if hash c q = i then q else held) earlier

end Sys2Proof.Machine
end

