-- ==== Sys2Proof/Certificates/Slice0/Obligations.lean ====
section
/-! DEFINITION. The statements about the decoder, each from a numbered rule of spec/. -/

open Sys2Proof Sys2Proof.Machine

/-! ### Encoding -/

/-- Words written out bit by bit from 30_encoding.md R84 to R89, R81 and R82 decode to the instructions they stand for. -/
def Obligations.BitPatternsDecode : Prop :=
  decodeChunk standardConfig [0b11111110, 0b00000001, 0b00000010, 0b00000011] = .ok (.rgb 1 2 3, []) ∧
  decodeChunk standardConfig [0b11111111, 0b00000001, 0b00000010, 0b00000011, 0b00000100] = .ok (.rgba 1 2 3 4, []) ∧
  decodeChunk standardConfig [0b00110110] = .ok (.index 54, []) ∧
  decodeChunk standardConfig [0b01110010] = .ok (.diff 3 0 2, []) ∧
  decodeChunk standardConfig [0b10101010, 0b01011100] = .ok (.luma 42 5 12, []) ∧
  decodeChunk standardConfig [0b11111101] = .ok (.run 61, []) ∧
  decodeHeader [0x71, 0x6F, 0x69, 0x66, 0x00, 0x00, 0x4E, 0x20, 0x00, 0x00, 0x4E, 0x1F, 0x03, 0xAB] =
    .ok (.header 0x716F6966 20000 19999 3 0xAB, []) ∧
  decodeTrailer standardConfig [0, 0, 0, 0, 0, 0, 0, 1] = .ok (.trailer [0, 0, 0, 0, 0, 0, 0, 1], [])

/-- 30_encoding.md R91: the opcode map by value of the first byte: the kind, the chunk length and the number of values of
each, and the field the decoder reads from the byte where the rule's table gives it. -/
def Obligations.OpcodeMapByFirstByte : Prop :=
  (∀ b1 : Byte,
    chunkKind standardConfig b1 =
      (if b1.toNat ≤ 0x3F then .index
      else if b1.toNat ≤ 0x7F then .diff
      else if b1.toNat ≤ 0xBF then .luma
      else if b1.toNat ≤ 0xFD then .run
      else if b1.toNat = 0xFE then .rgb
      else .rgba) ∧
    chunkLength (chunkKind standardConfig b1) =
      (if b1.toNat ≤ 0x7F then 1 else if b1.toNat ≤ 0xBF then 2 else if b1.toNat ≤ 0xFD then 1
      else if b1.toNat = 0xFE then 4 else 5)) ∧
  (∀ (b1 : Byte) (rest : List Byte), b1.toNat ≤ 0x3F →
    decodeChunk standardConfig (b1 :: rest) = .ok (.index (slice b1 0 6), rest) ∧ (slice b1 0 6).toNat = b1.toNat) ∧
  (∀ (b1 b2 : Byte) (rest : List Byte), 0x80 ≤ b1.toNat → b1.toNat ≤ 0xBF →
    decodeChunk standardConfig (b1 :: b2 :: rest) = .ok (.luma (slice b1 0 6) (slice b2 4 4) (slice b2 0 4), rest) ∧
      (slice b1 0 6).toNat = b1.toNat - 0x80) ∧
  (∀ (b1 : Byte) (rest : List Byte), 0xC0 ≤ b1.toNat → b1.toNat ≤ 0xFD →
    decodeChunk standardConfig (b1 :: rest) = .ok (.run (slice b1 0 6), rest) ∧
      (slice b1 0 6).toNat = b1.toNat - 0xC0) ∧
  [ChunkKind.index, .diff, .luma, .run, .rgb, .rgba].map (fun k =>
    ((List.range 256).filter fun n => chunkKind standardConfig (BitVec.ofNat 8 n) = k).length) = [64, 64, 64, 62, 1, 1]

/-- 30_encoding.md R95: every first byte selects a chunk and every following byte is legal; a chunk fails to decode only
by lacking bytes, and then by that name. -/
def Obligations.OnlyMissingBytesStopAChunk : Prop :=
  ∀ (c : Config) (b1 : Byte) (rest : List Byte),
    (chunkLength (chunkKind c b1) ≤ rest.length + 1 →
      ∃ i, decodeChunk c (b1 :: rest) = .ok (i, (b1 :: rest).drop i.length) ∧
        i.length = chunkLength (chunkKind c b1)) ∧
    (rest.length + 1 < chunkLength (chunkKind c b1) → decodeChunk c (b1 :: rest) = .error .chunkCutShort)

/-- Decoding an encoded well-formed instruction gives it back, with every operand at every value the encoding admits, for
every configuration that meets 00_scope.md R8 (30_encoding.md R80 to R94). -/
def Obligations.DecodeOfEncode : Prop :=
  ∀ (c : Config) (i : Instr) (rest : List Byte), c.Wf → i.wellFormed c = true →
    decode c i.recordKind (encode c i ++ rest) = .ok (i, rest)

/-- What decodes is well-formed, is of the kind its position calls for, and encodes to the very bytes it was read from:
no bit of a record is dropped (30_encoding.md R80 to R94). -/
def Obligations.EncodeOfDecode : Prop :=
  ∀ (c : Config) (k : RecordKind) (bytes : List Byte) (i : Instr) (rest : List Byte), c.Wf →
    decode c k bytes = .ok (i, rest) →
      i.wellFormed c = true ∧ i.recordKind = k ∧ encode c i ++ rest = bytes

/-- 20_memory.md R60 and 40_header.md R112: the header's fields, width and height as big-endian numbers. -/
def Obligations.HeaderFieldsAreBigEndian : Prop :=
  ∀ (m0 m1 m2 m3 w0 w1 w2 w3 h0 h1 h2 h3 ch cs : Byte) (rest : List Byte),
    ∃ m w h : Word,
      decodeHeader (m0 :: m1 :: m2 :: m3 :: w0 :: w1 :: w2 :: w3 :: h0 :: h1 :: h2 :: h3 :: ch :: cs :: rest) =
        .ok (.header m w h ch cs, rest) ∧
      m.toNat = m0.toNat * 2 ^ 24 + m1.toNat * 2 ^ 16 + m2.toNat * 2 ^ 8 + m3.toNat ∧
      w.toNat = w0.toNat * 2 ^ 24 + w1.toNat * 2 ^ 16 + w2.toNat * 2 ^ 8 + w3.toNat ∧
      h.toNat = h0.toNat * 2 ^ 24 + h1.toNat * 2 ^ 16 + h2.toNat * 2 ^ 8 + h3.toNat

/-- 30_encoding.md R93: a stored field less its bias, in the ranges the rule's table gives, and 44_delta.md R179: the
combined deltas range over -40 to 38. -/
def Obligations.DeltaFieldRanges : Prop :=
  (∀ f : BitVec 2, diffDelta standardConfig f = (f.toNat : Int) - 2 ∧
    -2 ≤ diffDelta standardConfig f ∧ diffDelta standardConfig f ≤ 1) ∧
  (∀ f : BitVec 6, lumaGreenDelta standardConfig f = (f.toNat : Int) - 32 ∧
    -32 ≤ lumaGreenDelta standardConfig f ∧ lumaGreenDelta standardConfig f ≤ 31) ∧
  (∀ f : BitVec 4, unbias f standardConfig.lumaRedBlueBias = (f.toNat : Int) - 8 ∧
    -8 ≤ unbias f standardConfig.lumaRedBlueBias ∧ unbias f standardConfig.lumaRedBlueBias ≤ 7) ∧
  (∀ (f : BitVec 6) (g : BitVec 4), lumaSideDelta standardConfig f g = ((f.toNat : Int) - 32) + ((g.toNat : Int) - 8) ∧
    -40 ≤ lumaSideDelta standardConfig f g ∧ lumaSideDelta standardConfig f g ≤ 38)

/-- 30_encoding.md R100: the bytes each line of the spec's assembler stands for, and the operand ranges. That `.header`
takes every operand that fits its field, also one R81 does not list as legal, is the model's choice (log 21). -/
def Obligations.AssemblerLinesGiveTheirBytes : Prop :=
  let bytes := fun l => (assemble standardConfig l).map (encode standardConfig)
  (∀ r g b : Nat, bytes (.rgb r g b) =
    if r ≤ 255 ∧ g ≤ 255 ∧ b ≤ 255 then some [0xFE, BitVec.ofNat 8 r, BitVec.ofNat 8 g, BitVec.ofNat 8 b] else none) ∧
  (∀ r g b a : Nat, bytes (.rgba r g b a) =
    if r ≤ 255 ∧ g ≤ 255 ∧ b ≤ 255 ∧ a ≤ 255 then
      some [0xFF, BitVec.ofNat 8 r, BitVec.ofNat 8 g, BitVec.ofNat 8 b, BitVec.ofNat 8 a] else none) ∧
  (∀ idx : Nat, bytes (.index idx) = if idx ≤ 63 then some [BitVec.ofNat 8 idx] else none) ∧
  (∀ dr dg db : Int, bytes (.diff dr dg db) =
    if (-2 ≤ dr ∧ dr ≤ 1) ∧ (-2 ≤ dg ∧ dg ≤ 1) ∧ (-2 ≤ db ∧ db ≤ 1) then
      some [BitVec.ofInt 8 (0x40 + (dr + 2) * 16 + (dg + 2) * 4 + (db + 2))] else none) ∧
  (∀ dg drDg dbDg : Int, bytes (.luma dg drDg dbDg) =
    if (-32 ≤ dg ∧ dg ≤ 31) ∧ (-8 ≤ drDg ∧ drDg ≤ 7) ∧ (-8 ≤ dbDg ∧ dbDg ≤ 7) then
      some [BitVec.ofInt 8 (0x80 + (dg + 32)), BitVec.ofInt 8 ((drDg + 8) * 16 + (dbDg + 8))] else none) ∧
  (∀ rl : Nat, bytes (.run rl) = if rl ≤ 61 then some [BitVec.ofNat 8 (0xC0 + rl)] else none) ∧
  (∀ w h ch cs : Nat, bytes (.header w h ch cs) =
    if w < 2 ^ 32 ∧ h < 2 ^ 32 ∧ ch ≤ 255 ∧ cs ≤ 255 then
      some [0x71, 0x6F, 0x69, 0x66,
        BitVec.ofNat 8 (w / 2 ^ 24), BitVec.ofNat 8 (w / 2 ^ 16), BitVec.ofNat 8 (w / 2 ^ 8), BitVec.ofNat 8 w,
        BitVec.ofNat 8 (h / 2 ^ 24), BitVec.ofNat 8 (h / 2 ^ 16), BitVec.ofNat 8 (h / 2 ^ 8), BitVec.ofNat 8 h,
        BitVec.ofNat 8 ch, BitVec.ofNat 8 cs] else none) ∧
  bytes .endMark = some [0, 0, 0, 0, 0, 0, 0, 1]

/-! ### Arithmetic of a pixel -/

/-- 44_delta.md R181: channel arithmetic is modulo 256, applied once to the full delta or to intermediate sums alike; red 0
and a DIFF or LUMA delta of -1 give 255, raising and setting nothing. -/
def Obligations.ChannelArithmeticWraps : Prop :=
  (∀ (old : Byte) (d : Int), ((addDelta old d).toNat : Int) = ((old.toNat : Int) + d) % 256) ∧
  (∀ (old : Byte) (d e : Int), addDelta (addDelta old d) e = addDelta old (d + e)) ∧
  addDelta 0 (-1) = 255 ∧
  (∀ (s : State) (dg db : BitVec 2), s.cfg = standardConfig → s.CanProduce → s.p.toNat + 1 ≤ s.len → s.px.r = 0 →
    ∃ t, exec (.diff 1 dg db) s = .next t ∧ t.px.r = 255 ∧ t.phase ≠ .error ∧ t.err = s.err) ∧
  (∀ (s : State) (dbDg : BitVec 4), s.cfg = standardConfig → s.CanProduce → s.p.toNat + 2 ≤ s.len → s.px.r = 0 →
    ∃ t, exec (.luma 31 8 dbDg) s = .next t ∧ t.px.r = 255 ∧ t.phase ≠ .error ∧ t.err = s.err)

/-- 44_delta.md R177 and R179: the rules' tables. The results of the four DIFF fields on four channel values, the bytes of
eight DIFF chunks, and what six LUMA chunks make of the pixel (0, 0, 0, a). -/
def Obligations.DeltaTables : Prop :=
  ([0, 1, 2, 3].map fun field : BitVec 2 =>
    (diffDelta standardConfig field, [0, 1, 254, 255].map fun old : Byte => addDelta old (diffDelta standardConfig field))) =
      [(-2, [254, 255, 252, 253]), (-1, [255, 0, 253, 254]), (0, [0, 1, 254, 255]), (1, [1, 2, 255, 0])] ∧
  ([(0, 0, 0), (1, 1, 1), (2, 2, 2), (3, 3, 3), (1, 2, 2), (2, 1, 2), (2, 2, 1), (3, 0, 2)].map
    fun f : BitVec 2 × BitVec 2 × BitVec 2 => encode standardConfig (.diff f.1 f.2.1 f.2.2)) =
      [[0x40], [0x55], [0x6A], [0x7F], [0x5A], [0x66], [0x69], [0x72]] ∧
  ∀ a : Byte,
    [[0x80, 0x00], [0xBF, 0xFF], [0xA0, 0x88], [0xA0, 0x0F], [0x9F, 0x88], [0xA1, 0x79]].map (fun bytes =>
      (decodeChunk standardConfig bytes).map fun decoded =>
        (chunkEffect standardConfig ⟨0, 0, 0, a⟩ State.reset.cache decoded.1).1) =
      [.ok ⟨216, 224, 216, a⟩, .ok ⟨38, 31, 38, a⟩, .ok ⟨0, 0, 0, a⟩, .ok ⟨248, 0, 7, a⟩, .ok ⟨255, 255, 255, a⟩,
        .ok ⟨0, 1, 2, a⟩]

/-- 43_index_cache.md R161 and R162: the hash, for every configuration that meets 00_scope.md R8 (which makes `CACHE_SLOTS`
64), its bound, its low-bit form, its invariance under 64 more in any channel, and the rule's table of values. -/
def Obligations.HashIsWeightedSumMod64 : Prop :=
  (∀ (c : Config) (q : Pixel), c.Wf → (hash c q).toNat =
    (c.hashR * q.r.toNat + c.hashG * q.g.toNat + c.hashB * q.b.toNat + c.hashA * q.a.toNat) % 64) ∧
  (∀ q : Pixel,
    (hash standardConfig q).toNat = (3 * q.r.toNat + 5 * q.g.toNat + 7 * q.b.toNat + 11 * q.a.toNat) % 64 ∧
    3 * q.r.toNat + 5 * q.g.toNat + 7 * q.b.toNat + 11 * q.a.toNat ≤ 6630 ∧
    hash standardConfig q = (3 * q.r + 5 * q.g + 7 * q.b + 11 * q.a).setWidth 6 ∧
    ∀ n, 6 ≤ n → hash standardConfig q =
      (3 * q.r.setWidth n + 5 * q.g.setWidth n + 7 * q.b.setWidth n + 11 * q.a.setWidth n).setWidth 6) ∧
  (∀ (c : Config) (q : Pixel), c.Wf →
    hash c { q with r := q.r + 64 } = hash c q ∧ hash c { q with g := q.g + 64 } = hash c q ∧
    hash c { q with b := q.b + 64 } = hash c q ∧ hash c { q with a := q.a + 64 } = hash c q) ∧
  [⟨0, 0, 0, 0⟩, ⟨0, 0, 0, 255⟩, ⟨255, 0, 0, 255⟩, ⟨0, 255, 0, 255⟩, ⟨0, 0, 255, 255⟩, ⟨255, 255, 255, 255⟩,
    ⟨255, 255, 255, 0⟩, ⟨10, 20, 30, 255⟩, ⟨10, 20, 30, 40⟩, ⟨1, 2, 3, 4⟩, ⟨128, 128, 128, 128⟩,
    ⟨100, 150, 200, 255⟩].map (hash standardConfig) = [0, 53, 50, 48, 46, 38, 49, 9, 12, 14, 0, 7]

/-! ### The six chunks: what each does, that it completes, and its frame -/

/-- 42_literal.md R151: RGB. Its bytes, its pixel (alpha kept), its completion with everything it changes and leaves, and
its error. -/
def Obligations.RgbSetsColourKeepsAlpha : Prop :=
  (∀ (c : Config) (r g b : Byte) (rest : List Byte),
    decodeChunk c (c.tagRgb :: r :: g :: b :: rest) = .ok (.rgb r g b, rest)) ∧
  (∀ (s : State) (r g b : Byte), s.CanProduce → s.p.toNat + 4 ≤ s.len →
    ∃ t, exec (.rgb r g b) s = .next t ∧ PixelProduced s t ⟨r, g, b, s.px.a⟩ 0 4) ∧
  (∀ (s : State) (r g b : Byte), s.phase = .pixels → s.len < s.p.toNat + 4 →
    ∃ t, exec (.rgb r g b) s = .next t ∧ ErrorTaken s t .truncated)

/-- 42_literal.md R152: RGBA. -/
def Obligations.RgbaSetsAllChannels : Prop :=
  (∀ (c : Config) (r g b a : Byte) (rest : List Byte), c.Wf →
    decodeChunk c (c.tagRgba :: r :: g :: b :: a :: rest) = .ok (.rgba r g b a, rest)) ∧
  (∀ (s : State) (r g b a : Byte), s.CanProduce → s.p.toNat + 5 ≤ s.len →
    ∃ t, exec (.rgba r g b a) s = .next t ∧ PixelProduced s t ⟨r, g, b, a⟩ 0 5) ∧
  (∀ (s : State) (r g b a : Byte), s.phase = .pixels → s.len < s.p.toNat + 5 →
    ∃ t, exec (.rgba r g b a) s = .next t ∧ ErrorTaken s t .truncated)

/-- 43_index_cache.md R163: INDEX. The pixel becomes the slot's, all four channels. -/
def Obligations.IndexLoadsTheSlot : Prop :=
  (∀ (c : Config) (b1 : Byte) (rest : List Byte), c.Wf → b1 &&& c.tagMask = c.tagIndex →
    decodeChunk c (b1 :: rest) = .ok (.index (b1.extractLsb' 0 6), rest)) ∧
  (∀ (s : State) (idx : Slot), s.CanProduce → s.p.toNat + 1 ≤ s.len →
    ∃ t, exec (.index idx) s = .next t ∧ PixelProduced s t (cacheGet s.cache idx) 0 1) ∧
  (∀ (s : State) (idx : Slot), s.phase = .pixels → s.len < s.p.toNat + 1 →
    ∃ t, exec (.index idx) s = .next t ∧ ErrorTaken s t .truncated)

/-- 44_delta.md R176: DIFF. -/
def Obligations.DiffAddsThreeDeltas : Prop :=
  (∀ (c : Config) (b1 : Byte) (rest : List Byte), c.Wf → b1 &&& c.tagMask = c.tagDiff →
    decodeChunk c (b1 :: rest) =
      .ok (.diff (b1.extractLsb' 4 2) (b1.extractLsb' 2 2) (b1.extractLsb' 0 2), rest)) ∧
  (∀ (s : State) (dr dg db : BitVec 2), s.CanProduce → s.p.toNat + 1 ≤ s.len →
    ∃ t, exec (.diff dr dg db) s = .next t ∧ PixelProduced s t
      ⟨BitVec.ofInt 8 (s.px.r.toNat + ((dr.toNat : Int) - s.cfg.diffBias)),
        BitVec.ofInt 8 (s.px.g.toNat + ((dg.toNat : Int) - s.cfg.diffBias)),
        BitVec.ofInt 8 (s.px.b.toNat + ((db.toNat : Int) - s.cfg.diffBias)), s.px.a⟩ 0 1) ∧
  (∀ (s : State) (dr dg db : BitVec 2), s.phase = .pixels → s.len < s.p.toNat + 1 →
    ∃ t, exec (.diff dr dg db) s = .next t ∧ ErrorTaken s t .truncated)

/-- 44_delta.md R178 and R179: LUMA. The red and blue deltas are added to the green delta, and all three updates use the
old pixel. -/
def Obligations.LumaAddsGreenRelativeDeltas : Prop :=
  (∀ (c : Config) (b1 b2 : Byte) (rest : List Byte), c.Wf → b1 &&& c.tagMask = c.tagLuma →
    decodeChunk c (b1 :: b2 :: rest) =
      .ok (.luma (b1.extractLsb' 0 6) (b2.extractLsb' 4 4) (b2.extractLsb' 0 4), rest)) ∧
  (∀ (s : State) (dg : BitVec 6) (drDg dbDg : BitVec 4), s.CanProduce → s.p.toNat + 2 ≤ s.len →
    ∃ t, exec (.luma dg drDg dbDg) s = .next t ∧ PixelProduced s t
      ⟨BitVec.ofInt 8 (s.px.r.toNat +
          (((dg.toNat : Int) - s.cfg.lumaGreenBias) + ((drDg.toNat : Int) - s.cfg.lumaRedBlueBias))),
        BitVec.ofInt 8 (s.px.g.toNat + ((dg.toNat : Int) - s.cfg.lumaGreenBias)),
        BitVec.ofInt 8 (s.px.b.toNat +
          (((dg.toNat : Int) - s.cfg.lumaGreenBias) + ((dbDg.toNat : Int) - s.cfg.lumaRedBlueBias))), s.px.a⟩ 0 2) ∧
  (∀ (s : State) (dg : BitVec 6) (drDg dbDg : BitVec 4), s.phase = .pixels → s.len < s.p.toNat + 2 →
    ∃ t, exec (.luma dg drDg dbDg) s = .next t ∧ ErrorTaken s t .truncated)

/-- 45_run.md R191: RUN. The same pixel once more, and the stored field as the count of additional repeats. -/
def Obligations.RunLoadsTheCounter : Prop :=
  (∀ (c : Config) (b1 : Byte) (rest : List Byte), c.Wf → b1 &&& c.tagMask = c.tagRun → b1 ≠ c.tagRgb → b1 ≠ c.tagRgba →
    decodeChunk c (b1 :: rest) = .ok (.run (b1.extractLsb' 0 6), rest)) ∧
  (∀ (s : State) (rl : BitVec 6), s.CanProduce → s.p.toNat + 1 ≤ s.len →
    ∃ t, exec (.run rl) s = .next t ∧ PixelProduced s t s.px rl 1) ∧
  (∀ (s : State) (rl : BitVec 6), s.phase = .pixels → s.len < s.p.toNat + 1 →
    ∃ t, exec (.run rl) s = .next t ∧ ErrorTaken s t .truncated)

/-- 45_run.md R193: the carry-over step reads no byte, moves no cursor and raises nothing. -/
def Obligations.CarryOverRepeatsThePixel : Prop :=
  ∀ s : State, s.cmd = none → s.CanProduce → s.run ≠ 0 →
    ∃ t, step s = .next t ∧ PixelProduced s t s.px (s.run - 1) 0 ∧ t.run.toNat = s.run.toNat - 1 ∧ t.p = s.p

/-- 45_run.md R192: a RUN chunk stands for `rl + 1` pixels: after `m` of its steps the pixel stands at `m`
positions and `rl + 1 - m` repeats are pending, and a count that runs past the last pixel is abandoned without error. -/
def Obligations.RunStandsForRlPlusOnePixels : Prop :=
  ∀ (s : State) (rl : BitVec 6) (rest : List Byte) (m : Nat), s.Inv → s.cmd = none → s.phase = .pixels → s.run = 0 →
    decodeChunk s.cfg s.fromCursor = .ok (.run rl, rest) → 1 ≤ m → m ≤ rl.toNat + 1 → s.pos.toNat + m ≤ s.npx.toNat →
      ∃ t, steps m s = .next t ∧ t.px = s.px ∧ t.run.toNat = rl.toNat + 1 - m ∧ t.p.toNat = s.p.toNat + 1 ∧
        t.pos.toNat = s.pos.toNat + m ∧ t.err = none ∧
        t.phase = (if s.pos.toNat + m = s.npx.toNat then .trailer else .pixels) ∧
        ∀ j, j < m → ∀ k, k < stride s.channels →
          t.outByte ((s.pos.toNat + j) * stride s.channels + k) = (pixelBytes s.channels s.px)[k]?

/-- 45_run.md R195: (a) RUN as the first chunk repeats `PX_INIT` and writes it to slot 53; (b) a count that runs past the
last pixel is abandoned at TRAILER, without error and with the cursor after the chunk; (c) RUN repeats whatever pixel the
chunk before it produced. -/
def Obligations.RunMayStandAnywhere : Prop :=
  (∀ (s t : State) (m w h : Word) (ch cs : Byte) (rl : BitVec 6), s.cfg = standardConfig → s.len < 2 ^ 32 →
    exec (.header m w h ch cs) s = .next t → t.phase = .pixels →
      ∃ u, exec (.run rl) t = .next u ∧ PixelProduced t u ⟨0, 0, 0, 255⟩ rl 1 ∧
        cacheGet u.cache 53 = ⟨0, 0, 0, 255⟩ ∧ (ch = 3 ∨ ch = 4) ∧
        ∀ k, k < ch.toNat → u.outByte k = some (if k = 3 then 0xFF else 0x00)) ∧
  (∀ (s : State) (rl : BitVec 6) (rest : List Byte), s.Inv → s.cmd = none → s.phase = .pixels → s.run = 0 →
    decodeChunk s.cfg s.fromCursor = .ok (.run rl, rest) → s.npx.toNat - s.pos.toNat < rl.toNat + 1 →
      ∃ t, steps (s.npx.toNat - s.pos.toNat) s = .next t ∧ t.phase = .trailer ∧ t.err = none ∧
        t.p.toNat = s.p.toNat + 1 ∧ t.run.toNat = rl.toNat + 1 - (s.npx.toNat - s.pos.toNat)) ∧
  (∀ (i : Instr) (s t : State) (rl : BitVec 6), i.recordKind = .chunk → exec i s = .next t → t.CanProduce →
    t.p.toNat + 1 ≤ t.len → ∃ u, exec (.run rl) t = .next u ∧ u.px = t.px)

/-- 41_pixel_step.md R137, R138 and R139: every pixel step that raises nothing, whatever chunk or run it executes, updates
the one cache slot its pixel hashes to, writes exactly its pixel's bytes and advances the position. -/
def Obligations.EveryPixelStepCommitsItsPixel : Prop :=
  ∀ s t : State, s.Inv → s.cmd = none → s.phase = .pixels → step s = .next t → t.phase ≠ .error →
    ∃ n, PixelProduced s t t.px t.run n

/-- 41_pixel_step.md R135: the pixel and the run counter a chunk gives depend on nothing but the old pixel and, for INDEX,
the cache: not on the channel mode, the position, the output or the header registers. -/
def Obligations.ChunkMeaningIgnoresModeAndPosition : Prop :=
  ∀ (i : Instr) (s s' t t' : State), i.recordKind = .chunk → s.cfg = s'.cfg → s.px = s'.px →
    (∀ idx, i = .index idx → s.cache = s'.cache) →
    exec i s = .next t → exec i s' = .next t' → t.phase ≠ .error → t'.phase ≠ .error →
      t.px = t'.px ∧ t.run = t'.run

/-- 44_delta.md R182: alpha changes only by RGBA and INDEX. -/
def Obligations.AlphaChangesOnlyByRgbaAndIndex : Prop :=
  ∀ s t : State, s.cmd = none → s.phase = .pixels → step s = .next t → t.px.a ≠ s.px.a →
    s.run = 0 ∧ ∃ i rest, decodeChunk s.cfg s.fromCursor = .ok (i, rest) ∧
      ((∃ r g b a, i = .rgba r g b a) ∨ ∃ idx, i = .index idx)

/-- 43_index_cache.md R164: INDEX of a slot that no pixel of this decode has written gives the slot's initial value, for
either value of the OPEN parameter `SEED_OPAQUE_3CH`, and is no error; the step then writes that value into the slot it
hashes to. -/
def Obligations.UnwrittenSlotGivesTheSeed : Prop :=
  (∀ (s t u : State) (m w h : Word) (ch cs : Byte) (n : Nat) (idx : Slot), s.cmd = none →
    exec (.header m w h ch cs) s = .next t → t.phase = .pixels → steps n t = .next u →
    (∀ q ∈ pixelsProduced n t, hash s.cfg q ≠ idx) → u.CanProduce → u.p.toNat + 1 ≤ u.len →
      ∃ v, exec (.index idx) u = .next v ∧
        PixelProduced u v ⟨0, 0, 0, if s.cfg.seedOpaque3Ch = true ∧ ch = 3 then 255 else 0⟩ 0 1) ∧
  hash standardConfig ⟨0, 0, 0, 0⟩ = 0 ∧ hash standardConfig ⟨0, 0, 0, 255⟩ = 53

/-- 10_state.md R32: over any steps, a slot holds the last pixel produced that hashes to it, or what it held before. -/
def Obligations.SlotHoldsLastPixelOfItsHash : Prop :=
  ∀ (s t : State) (n : Nat) (i : Slot), s.cmd = none → s.phase = .pixels → steps n s = .next t →
    cacheGet t.cache i = lastInSlot s.cfg i (cacheGet s.cache i) (pixelsProduced n s)

/-- 43_index_cache.md R168: INDEX of the slot of a pixel produced earlier reproduces that pixel, provided no pixel in
between hashed to the same slot. -/
def Obligations.IndexReproducesAnEarlierPixel : Prop :=
  ∀ (s s₁ t : State) (n : Nat), s.cmd = none → s.phase = .pixels → step s = .next s₁ → s₁.phase ≠ .error →
    steps n s₁ = .next t → (∀ q ∈ pixelsProduced n s₁, hash s.cfg q ≠ hash s.cfg s₁.px) →
    t.CanProduce → t.p.toNat + 1 ≤ t.len →
      ∃ u, exec (.index (hash s.cfg s₁.px)) t = .next u ∧ PixelProduced t u s₁.px 0 1

/-! ### HEADER and TRAILER -/

/-- 40_header.md R118 and R119, with the initialisation of 10_state.md R44: a header that passes its checks is latched,
whatever its colour space; `npx` is the exact product; everything the pixel steps use is initialised. -/
def Obligations.PassingHeaderStartsThePixels : Prop :=
  ∀ (s : State) (m w h : Word) (ch cs : Byte), s.cfg.Wf → s.phase = .header →
    HeaderPasses s.cfg s.len m w h ch →
      ∃ t, exec (.header m w h ch cs) s = .next t ∧ t.phase = .pixels ∧
        t.width = w ∧ t.height = h ∧ t.channels = ch ∧ t.colorspace = cs ∧
        t.npx.toNat = w.toNat * h.toNat ∧ t.npx.toNat ≤ s.cfg.pixelsMax - w.toNat ∧ t.npx.toNat < s.cfg.pixelsMax ∧
        t.npx.toNat * ch.toNat < 2 ^ 32 ∧
        t.px = s.cfg.pxInit ∧ t.run = 0 ∧ t.pos = 0 ∧ t.p = 14 ∧
        (∀ i, cacheGet t.cache i = ⟨0, 0, 0, if s.cfg.seedOpaque3Ch = true ∧ ch = 3 then 255 else 0⟩) ∧
        (∃ b, t.out = some b ∧ b.len = w.toNat * h.toNat * ch.toNat) ∧ (∀ a, t.outByte a = none) ∧
        t.err = s.err ∧ t.cfg = s.cfg ∧ t.stream = s.stream ∧ t.cmd = s.cmd ∧ t.draws = s.draws

/-- 40_header.md R115 and R120: the checks of the HEADER step and their order; the first that fails is the error, and
nothing else of the step is committed. -/
def Obligations.HeaderReportsItsFirstFailingCheck : Prop :=
  ∀ (s : State) (m w h : Word) (ch cs : Byte), s.phase = .header →
    let raises := fun e => ∃ t, exec (.header m w h ch cs) s = .next t ∧ ErrorTaken s t e
    let longEnough := s.cfg.hdrLen + s.cfg.padLen ≤ s.len
    let heightOk := h.toNat ≠ 0 ∧ h.toNat < s.cfg.pixelsMax / w.toNat
    (¬ longEnough → raises .tooShort) ∧
    (longEnough → m ≠ s.cfg.magic → raises .badMagic) ∧
    (longEnough → m = s.cfg.magic → w.toNat = 0 → raises .invalidWidth) ∧
    (longEnough → m = s.cfg.magic → w.toNat ≠ 0 → ¬ heightOk → raises .invalidHeight) ∧
    (longEnough → m = s.cfg.magic → w.toNat ≠ 0 → heightOk → ch ≠ 3 ∧ ch ≠ 4 → raises .invalidChannels)

/-- 40_header.md R116: the height bound with the standard `PIXELS_MAX`, and at the boundaries of the rule's table: which
heights pass, and that the others are `InvalidHeight`. -/
def Obligations.HeightBoundTable : Prop :=
  ∀ h : Word,
    let answer := fun w : Word => headerError standardConfig 22 standardConfig.magic w h 3
    let passes := fun w : Word => answer w = none
    (∀ w : Word, 1 ≤ w.toNat →
      answer w = if h.toNat = 0 ∨ 400000000 / w.toNat ≤ h.toNat then some .invalidHeight else none) ∧
    (passes 1 ↔ 1 ≤ h.toNat ∧ h.toNat ≤ 399999999) ∧
    (passes 2 ↔ 1 ≤ h.toNat ∧ h.toNat ≤ 199999999) ∧
    (passes 3 ↔ 1 ≤ h.toNat ∧ h.toNat ≤ 133333332) ∧
    (passes 7 ↔ 1 ≤ h.toNat ∧ h.toNat ≤ 57142856) ∧
    (passes 20000 ↔ 1 ≤ h.toNat ∧ h.toNat ≤ 19999) ∧
    (passes 133333333 ↔ 1 ≤ h.toNat ∧ h.toNat ≤ 2) ∧
    (passes 200000000 ↔ h.toNat = 1) ∧
    (∀ w : Word, 200000001 ≤ w.toNat → answer w = some .invalidHeight)

/-- 40_header.md R113: a stream shorter than header and padding raises `TooShort` whatever it contains, and with parameters
that meet 00_scope.md R8 a longer one does not. -/
def Obligations.ShortStreamIsTooShort : Prop :=
  standardConfig.hdrLen + standardConfig.padLen = 22 ∧
  ∀ s : State, s.cmd = none → s.phase = .header →
    (s.len < s.cfg.hdrLen + s.cfg.padLen → ∃ t, step s = .next t ∧ ErrorTaken s t .tooShort) ∧
    (s.cfg.Wf → s.cfg.hdrLen + s.cfg.padLen ≤ s.len → s.err = none → ∃ t, step s = .next t ∧ t.err ≠ some .tooShort)

/-- 46_trailer.md R201, R202 and R203: the TRAILER step, for both values of `STRICT_END`: DONE and nothing else when the
sentinel stands at the cursor at the end of the stream, else the first failing check's error. -/
def Obligations.TrailerDecidesTheDecode : Prop :=
  ∀ (s : State) (pad : List Byte), s.phase = .trailer →
    let raises := fun e => ∃ t, exec (.trailer pad) s = .next t ∧ ErrorTaken s t e
    let passes := exec (.trailer pad) s = .next { s with phase := .done }
    (s.p.toNat + s.cfg.padLen = s.len → pad = s.cfg.sentinel → passes) ∧
    (s.cfg.strictEnd = false → s.p.toNat + s.cfg.padLen ≤ s.len → pad = s.cfg.sentinel → passes) ∧
    (s.len < s.p.toNat + s.cfg.padLen → raises .truncated) ∧
    (s.cfg.strictEnd = true → s.p.toNat + s.cfg.padLen < s.len → raises .badPadding) ∧
    (s.p.toNat + s.cfg.padLen ≤ s.len → pad ≠ s.cfg.sentinel → raises .badPadding)

/-- 46_trailer.md R204, at the level of the step: the rule's table for `STRICT_END`, and what `STRICT_END` false makes of
the rows in which the sentinel's bytes are there. -/
def Obligations.DecodeSucceedsExactlyAtTheSentinel : Prop :=
  ∀ s : State, s.cmd = none → s.phase = .trailer →
    (s.p.toNat + s.cfg.padLen = s.len → s.fromCursor = s.cfg.sentinel → step s = .next { s with phase := .done }) ∧
    (s.p.toNat + s.cfg.padLen = s.len → s.fromCursor ≠ s.cfg.sentinel →
      ∃ t, step s = .next t ∧ ErrorTaken s t .badPadding) ∧
    (s.cfg.strictEnd = true → s.p.toNat + s.cfg.padLen < s.len → ∃ t, step s = .next t ∧ ErrorTaken s t .badPadding) ∧
    (s.len < s.p.toNat + s.cfg.padLen → ∃ t, step s = .next t ∧ ErrorTaken s t .truncated) ∧
    (s.cfg.strictEnd = false → s.p.toNat + s.cfg.padLen < s.len →
      (s.fromCursor.take s.cfg.padLen = s.cfg.sentinel → step s = .next { s with phase := .done }) ∧
      (s.fromCursor.take s.cfg.padLen ≠ s.cfg.sentinel → ∃ t, step s = .next t ∧ ErrorTaken s t .badPadding))

/-- 40_header.md R121 (a), with 46_trailer.md R205: no stream of 22 bytes or fewer decodes successfully, although a header
of 22 bytes passes its checks. -/
def Obligations.NoStreamOf22BytesDecodes : Prop :=
  ∀ stream : List Byte, stream.length ≤ 22 → ∃ e, wholeDecode standardConfig stream = .error e

/-! ### Errors -/

/-- 60_exceptions.md R213: a step that raises commits nothing but `phase` and `err`. -/
def Obligations.ErrorCommitsNothingElse : Prop :=
  ∀ s t : State, step s = .next t → t.phase = .error → ∃ e, ErrorTaken s t e

/-- 60_exceptions.md R212: which step can raise which error. -/
def Obligations.EachStepRaisesOnlyItsErrors : Prop :=
  ∀ (s t : State) (e : FormatError), s.err = none → step s = .next t → t.err = some e →
    s.cmd = none ∧
      ((s.phase = .header ∧ e ∈ [.tooShort, .badMagic, .invalidWidth, .invalidHeight, .invalidChannels]) ∨
        (s.phase = .pixels ∧ s.run = 0 ∧ e = .truncated) ∨
        (s.phase = .trailer ∧ e ∈ [.truncated, .badPadding]))

/-- 60_exceptions.md R211: the codes held in `err`. -/
def Obligations.ErrorCodes : Prop :=
  [none, some .tooShort, some .badMagic, some .invalidWidth, some .invalidHeight, some .invalidChannels,
    some .badPadding, some .truncated].map errCode = [0, 1, 2, 3, 4, 5, 6, 7]

/-- 70_reset_and_hazards.md R255 and 20_memory.md R56: in every state the machine can be in, a decode in progress goes on:
no stream leads to an access that does not exist or to a stop. -/
def Obligations.EveryStreamIsAnswered : Prop :=
  ∀ s : State, s.Inv → s.cmd = none → s.Decoding → ∃ t, step s = .next t

/-! ### The host, reset and phases -/

/-- A step runs the record decoded where its phase says, and what a step adds around it: a pending run is carried over
instead, and missing bytes raise the record's error (41_pixel_step.md R131, R134; 40_header.md R111; 46_trailer.md
R201). -/
def Obligations.StepRunsTheDecodedRecord : Prop :=
  ∀ s : State, s.cmd = none →
    (s.phase = .header →
      (∀ i rest, decode s.cfg .header s.stream = .ok (i, rest) → step s = exec i s) ∧
      (∀ e, decode s.cfg .header s.stream = .error e → step s = .next (raise .tooShort s))) ∧
    (s.phase = .pixels → s.run = 0 →
      (∀ i rest, decode s.cfg .chunk (s.stream.drop s.p.toNat) = .ok (i, rest) → step s = exec i s) ∧
      (∀ e, decode s.cfg .chunk (s.stream.drop s.p.toNat) = .error e → step s = .next (raise .truncated s))) ∧
    (s.phase = .pixels → s.run ≠ 0 → step s = carryOver s) ∧
    (s.phase = .trailer →
      (∀ i rest, decode s.cfg .trailer (s.stream.drop s.p.toNat) = .ok (i, rest) → step s = exec i s) ∧
      (∀ e, decode s.cfg .trailer (s.stream.drop s.p.toNat) = .error e → step s = .next (raise .truncated s)))

/-- 60_exceptions.md R240 and R238: in IDLE, DONE and ERROR no decoder step is enabled; the model stops there by name until
the host presents a command (log 4). -/
def Obligations.NoStepWhereNothingIsEnabled : Prop :=
  ∀ s : State, s.cmd = none → (step s = .fault .noStepEnabled ↔ ¬ s.Decoding)

/-- 70_reset_and_hazards.md R252: the start step. -/
def Obligations.StartBindsTheStream : Prop :=
  ∀ (s : State) (stream : List Byte), (s.phase = .idle ∨ s.phase = .done ∨ s.phase = .error) →
    stream.length < 2 ^ 32 →
      ∃ t, step (s.present (.start stream)) = .next t ∧ t.stream = stream ∧ t.err = none ∧ t.p = 0 ∧
        t.phase = .header ∧ t.cfg = s.cfg ∧ t.px = s.px ∧ t.run = s.run ∧ t.pos = s.pos ∧
        t.cache = s.cache ∧ t.width = s.width ∧ t.height = s.height ∧ t.channels = s.channels ∧
        t.colorspace = s.colorspace ∧ t.npx = s.npx

/-- 60_exceptions.md R230: `start` during a decode has no meaning (refused). -/
def Obligations.StartDuringADecodeIsRefused : Prop :=
  ∀ (s : State) (stream : List Byte), s.Decoding →
    step (s.present (.start stream)) = .refused .startDuringDecode

/-- 60_exceptions.md R232 and 92_eei_decisions.md D26, with the model's choice of log 13: a stream of 2^32 bytes or more
is no input; the model refuses it by name. -/
def Obligations.OverlongStartIsRefused : Prop :=
  ∀ (s : State) (stream : List Byte), (s.phase = .idle ∨ s.phase = .done ∨ s.phase = .error) →
    2 ^ 32 ≤ stream.length → step (s.present (.start stream)) = .refused .startTooLong

/-- 00_scope.md R12, with the model's choice of log 11: a record's meaning asked for outside the phase whose step it is
stops by name; the step itself never asks so. -/
def Obligations.RecordsRunOnlyInTheirPhase : Prop :=
  (∀ (i : Instr) (s : State),
    (s.phase ≠ match i.recordKind with
      | .header => .header
      | .chunk => .pixels
      | .trailer => .trailer) → exec i s = .refused .notEnabled) ∧
  ∀ s : State, s.cmd = none → step s ≠ .refused .notEnabled

/-- 10_state.md R44: the values after hardware reset, after the start step and after a successful HEADER step. -/
def Obligations.ResetStartAndHeaderValues : Prop :=
  (∀ s t : State, step (s.present .hardReset) = .next t → t.phase = .idle ∧ t.err = none ∧ t.out = none) ∧
  (∀ (s t : State) (stream : List Byte), step (s.present (.start stream)) = .next t →
    t.phase = .header ∧ t.err = none ∧ t.p = 0 ∧ t.out = none) ∧
  (∀ (s t : State) (m w h : Word) (ch cs : Byte), s.cfg.Wf → s.err = none → exec (.header m w h ch cs) s = .next t →
    t.phase ≠ .error →
      t.phase = .pixels ∧ t.err = none ∧ t.p = 14 ∧ t.width = w ∧ t.height = h ∧ t.channels = ch ∧ t.colorspace = cs ∧
      t.npx.toNat = w.toNat * h.toNat ∧ t.pos = 0 ∧ t.px = s.cfg.pxInit ∧ t.run = 0 ∧
      (∀ i, cacheGet t.cache i = ⟨0, 0, 0, if s.cfg.seedOpaque3Ch = true ∧ ch = 3 then 255 else 0⟩) ∧
      (∃ b, t.out = some b ∧ b.len = t.npx.toNat * ch.toNat) ∧ (∀ a, t.outByte a = none)) ∧
  standardConfig.pxInit = ⟨0, 0, 0, 255⟩

/-- 70_reset_and_hazards.md R250, with the first column of 10_state.md R44: hardware reset, at any time, gives IDLE and
`ERR_NONE`; so is the state after reset. That no output buffer exists then is R44's ("does not exist"), where R250 calls
the buffer unspecified (log 22); the parameters are the constants of R254. -/
def Obligations.HardwareResetGivesIdle : Prop :=
  (State.reset.phase = .idle ∧ State.reset.err = none ∧ State.reset.out = none) ∧
  ∀ s : State, ∃ t, step (s.present .hardReset) = .next t ∧ t.phase = .idle ∧ t.err = none ∧ t.out = none ∧
    t.cfg = s.cfg

/-- 10_state.md R38: the codes of the phases and the events that leave each. -/
def Obligations.PhasesFollowTheLifeCycle : Prop :=
  [Phase.idle, .header, .pixels, .trailer, .done, .error].map Phase.code = [0, 1, 2, 3, 4, 5] ∧
  (∀ s t : State, s.cmd = none → step s = .next t →
    (s.phase, t.phase) ∈ [(Phase.header, Phase.pixels), (.header, .error), (.pixels, .pixels), (.pixels, .trailer),
      (.pixels, .error), (.trailer, .done), (.trailer, .error)] ∧
    (s.phase = .pixels → (t.phase = .trailer ↔ t.phase ≠ .error ∧ s.pos + 1 = s.npx))) ∧
  (∀ (s t : State) (stream : List Byte), step (s.present (.start stream)) = .next t →
    (s.phase = .idle ∨ s.phase = .done ∨ s.phase = .error) ∧ t.phase = .header) ∧
  (∀ s t : State, step (s.present .hardReset) = .next t → t.phase = .idle) ∧
  (∀ s : State, s.Inv → (s.phase = .pixels → s.pos.toNat < s.npx.toNat) ∧ (s.phase = .error ↔ s.err ≠ none))

/-- 10_state.md R45: the decoder never writes the stream, its length or a parameter; a start binds the stream, shorter than
2^32 bytes. -/
def Obligations.StreamAndParametersAreFixed : Prop :=
  (∀ s t : State, step s = .next t → t.cfg = s.cfg) ∧
  (∀ s t : State, s.cmd = none → step s = .next t → t.stream = s.stream ∧ t.len = s.len) ∧
  (∀ (s t : State) (stream : List Byte), step (s.present (.start stream)) = .next t →
    t.stream = stream ∧ t.len = stream.length ∧ t.len < 2 ^ 32)

/-- 10_state.md R35 to R37 and R40: only a successful HEADER step writes the header registers. -/
def Obligations.OnlyHeaderWritesHeaderRegisters : Prop :=
  ∀ s t : State, s.cmd = none → step s = .next t → (s.phase ≠ .header ∨ t.phase = .error) →
    t.width = s.width ∧ t.height = s.height ∧ t.channels = s.channels ∧ t.colorspace = s.colorspace ∧ t.npx = s.npx

/-- 40_header.md R118 and 10_state.md R37: every colour space is accepted and latched, and it changes nothing in the
decode: a header step does the same but for the latched value, and a pixel or trailer step does the same whatever it
holds. -/
def Obligations.ColourSpaceChangesNothing : Prop :=
  (∀ (s t : State) (m w h : Word) (ch cs cs' : Byte), exec (.header m w h ch cs) s = .next t →
    (t.phase ≠ .error → t.colorspace = cs ∧ exec (.header m w h ch cs') s = .next { t with colorspace := cs' }) ∧
    (t.phase = .error → exec (.header m w h ch cs') s = .next t)) ∧
  ∀ (s t : State) (cs : Byte), s.cmd = none → s.phase ≠ .header → step s = .next t →
    step { s with colorspace := cs } = .next { t with colorspace := cs }

/-- 10_state.md R27: how each step moves the cursor. -/
def Obligations.CursorMovesByTheRecord : Prop :=
  ∀ s t : State, s.Inv → step s = .next t → t.phase ≠ .error →
    (∀ stream, s.cmd = some (.start stream) → t.p = 0) ∧
    (s.cmd = none → s.phase = .header → s.p = 0 ∧ t.p = 14) ∧
    (s.cmd = none → s.phase = .pixels → s.run ≠ 0 → t.p = s.p) ∧
    (s.cmd = none → s.phase = .pixels → s.run = 0 →
      ∃ i rest, decodeChunk s.cfg s.fromCursor = .ok (i, rest) ∧ t.p.toNat = s.p.toNat +
        (match i with
        | .rgb _ _ _ => 4
        | .rgba _ _ _ _ => 5
        | .index _ => 1
        | .diff _ _ _ => 1
        | .luma _ _ _ => 2
        | .run _ => 1
        | .header _ _ _ _ _ => 0
        | .trailer _ => 0)) ∧
    (s.cmd = none → s.phase = .trailer → t.p = s.p)

/-- 45_run.md R196: `0 <= run <= 61`: true once the header has passed, and kept by every step of the decoder and by a
start. -/
def Obligations.RunCounterStaysBelow62 : Prop :=
  (∀ (s t : State) (m w h : Word) (ch cs : Byte), exec (.header m w h ch cs) s = .next t → t.phase = .pixels →
    t.run.toNat ≤ 61) ∧
  ∀ s t : State, s.cfg.Wf → s.cmd ≠ some .hardReset → s.run.toNat ≤ 61 → step s = .next t → t.run.toNat ≤ 61

/-! ### The output buffer and the result -/

/-- 20_memory.md R57: after the pixel step for position `pos` the bytes below `(pos + 1) * channels` are written and the
rest are not; a written byte is never written otherwise; at DONE no byte is unwritten. -/
def Obligations.OutputBytesWrittenOnceInOrder : Prop :=
  (∀ s t : State, s.Inv → s.cmd = none → s.phase = .pixels → step s = .next t → t.phase ≠ .error →
    (∀ a, (t.outByte a).isSome ↔ a < (s.pos.toNat + 1) * s.channels.toNat) ∧
    (∀ a v, s.outByte a = some v → t.outByte a = some v)) ∧
  (∀ s : State, s.Inv → s.phase = .done → ∀ a, (s.outByte a).isSome ↔ a < s.npx.toNat * s.channels.toNat)

/-- 20_memory.md R58: at DONE the host gets the four header values and all `npx * channels` bytes, at ERROR the error kind
and nothing else, in any other phase nothing. -/
def Obligations.ResultIsImageOrError : Prop :=
  ∀ s : State, s.Inv →
    (s.phase = .done → ∃ bytes, s.answer = some (.ok ⟨s.width, s.height, s.channels, s.colorspace, bytes⟩) ∧
      bytes.length = s.npx.toNat * s.channels.toNat ∧ ∀ a, a < bytes.length → bytes[a]? = s.outByte a) ∧
    (s.phase = .error → ∃ e, s.err = some e ∧ s.answer = some (.error e)) ∧
    (s.phase ≠ .done → s.phase ≠ .error → s.answer = none)

/-! ### Whole-machine results -/

/-- The invariant of 10_state.md R46 holds after reset. That `run` is at most 61 there rests on the model's choice of log 1
(zero). -/
def Obligations.ResetMeetsTheInvariant : Prop := State.reset.Inv

/-- The invariant of 10_state.md R46, with the canonical form of the output memory, the run bound of 45_run.md R196 and the
place of `ERR_NONE`, is kept by every step, host commands included. That hardware reset keeps the run bound rests on the
model's choice of log 8 (zero). -/
def Obligations.EveryStepKeepsTheInvariant : Prop :=
  ∀ s t : State, s.Inv → step s = .next t → t.Inv

/-- 20_memory.md R74 and 70_reset_and_hazards.md R253: a decode depends on nothing a previous decode left: two machines
with the same parameters that start the same stream agree on everything once the header has passed (but for the model's
own count of draws). -/
def Obligations.NothingSurvivesAStart : Prop :=
  ∀ (s₁ s₂ t₁ t₂ : State) (stream : List Byte), s₁.cfg = s₂.cfg →
    steps 2 (s₁.present (.start stream)) = .next t₁ → steps 2 (s₂.present (.start stream)) = .next t₂ →
      t₁.status = t₂.status ∧ (t₁.phase = .pixels → t₁ = { t₂ with draws := t₁.draws })

/-- 70_reset_and_hazards.md R267 and 60_exceptions.md R240: every decode ends, within the steps the rule allows; one that
succeeds takes exactly one step for each pixel left and one each for header and trailer. -/
def Obligations.EveryDecodeEnds : Prop :=
  ∀ s : State, s.Inv → s.cmd = none → s.Decoding →
    ∃ k t, k ≤ s.stepsLeft ∧ steps k s = .next t ∧ t.Over ∧
      (t.phase = .done →
        (s.phase = .header → k = t.npx.toNat + 2) ∧
        (s.phase = .pixels → k = t.npx.toNat - s.pos.toNat + 1))

/-- 41_pixel_step.md R143: from every state in which `start` is allowed, whatever it holds, and for every stream, running
the start, HEADER, pixel and TRAILER steps to the end gives exactly what the whole-decode function gives. -/
def Obligations.StepsComputeTheWholeDecode : Prop :=
  ∀ (s : State) (stream : List Byte), s.cfg.Wf → (s.phase = .idle ∨ s.phase = .done ∨ s.phase = .error) →
    stream.length < 2 ^ 32 →
      ∃ k t, steps k (s.present (.start stream)) = .next t ∧ t.Over ∧
        t.answer = some (wholeDecode s.cfg stream)
end

