-- ==== Sys2Proof/Laws/Decode.lean ====
section
/-! SUPPORT. What the decoder can answer, said once. -/

-- One theorem is checked at a time, to keep memory down.
set_option Elab.async false

namespace Sys2Proof

/-- The fields read belong to a chunk of its own length, and what follows them is left (30_encoding.md R83). -/
theorem decodeFields_ok {b1 : Byte} {k : ChunkKind} {bytes : List Byte} {i : Instr} {rest : List Byte}
    (h : decodeFields b1 k bytes = .ok (i, rest)) :
    i.recordKind = .chunk ∧ i.length = chunkLength k ∧ i.length ≤ bytes.length + 1 ∧
      rest = (b1 :: bytes).drop i.length := by
  unfold decodeFields at h
  split at h <;> cases h <;> simp [Instr.recordKind, Instr.length, chunkLength]

/-- A chunk read from bytes is a chunk, of its own length, and what follows it is left (30_encoding.md R83). -/
theorem decodeChunk_ok {c : Config} {bytes : List Byte} {i : Instr} {rest : List Byte}
    (h : decodeChunk c bytes = .ok (i, rest)) :
    i.recordKind = .chunk ∧ i.length ≤ bytes.length ∧ rest = bytes.drop i.length := by
  cases bytes with
  | nil => cases h
  | cons b1 bytes =>
    obtain ⟨h₁, -, h₂, h₃⟩ := decodeFields_ok h
    exact ⟨h₁, by simpa using h₂, h₃⟩

/-- A chunk is at least one byte and at most five (30_encoding.md R80). -/
theorem length_chunk {i : Instr} (h : i.recordKind = .chunk) : 1 ≤ i.length ∧ i.length ≤ 5 := by
  cases i <;> simp [Instr.length] <;> cases h

/-- The only refusal of a chunk (30_encoding.md R95). -/
theorem decodeChunk_error {c : Config} {bytes : List Byte} {e : DecodeError} (h : decodeChunk c bytes = .error e) :
    e = .chunkCutShort := by
  cases bytes with
  | nil => cases h; rfl
  | cons b1 bytes =>
    rw [decodeChunk] at h
    unfold decodeFields at h
    split at h <;> cases h <;> rfl

/-- A header read from bytes is a HEADER record of 14 bytes (30_encoding.md R81). -/
theorem decodeHeader_ok {bytes : List Byte} {i : Instr} {rest : List Byte} (h : decodeHeader bytes = .ok (i, rest)) :
    (∃ m w ht ch cs, i = .header m w ht ch cs) ∧ 14 ≤ bytes.length ∧
      rest = bytes.drop 14 := by
  unfold decodeHeader at h
  split at h
  · cases h; exact ⟨⟨_, _, _, _, _, rfl⟩, by simp, by simp⟩
  · cases h

/-- The only refusal of a header: fewer than 14 bytes. -/
theorem decodeHeader_error {bytes : List Byte} {e : DecodeError} (h : decodeHeader bytes = .error e) :
    e = .headerCutShort ∧ bytes.length < 14 := by
  unfold decodeHeader at h
  split at h
  · cases h
  · rename_i hno
    refine ⟨by cases h; rfl, ?_⟩
    by_contra hlen
    rw [Nat.not_lt] at hlen
    match bytes, hlen with
    | m0 :: m1 :: m2 :: m3 :: w0 :: w1 :: w2 :: w3 :: h0 :: h1 :: h2 :: h3 :: ch :: cs :: rest, _ =>
      exact hno _ _ _ _ _ _ _ _ _ _ _ _ _ _ _ rfl

/-- A trailer read from bytes is `PAD_LEN` of them (30_encoding.md R82). -/
theorem decodeTrailer_ok {c : Config} {bytes : List Byte} {i : Instr} {rest : List Byte}
    (h : decodeTrailer c bytes = .ok (i, rest)) :
    i = .trailer (bytes.take c.padLen) ∧ c.padLen ≤ bytes.length ∧ rest = bytes.drop c.padLen := by
  unfold decodeTrailer at h
  split at h
  · cases h
  · cases h; exact ⟨rfl, by omega, rfl⟩

/-- The only refusal of a trailer: fewer than `PAD_LEN` bytes. -/
theorem decodeTrailer_error {c : Config} {bytes : List Byte} {e : DecodeError} (h : decodeTrailer c bytes = .error e) :
    e = .trailerCutShort ∧ bytes.length < c.padLen := by
  unfold decodeTrailer at h
  split at h
  · cases h; exact ⟨rfl, by assumption⟩
  · cases h

end Sys2Proof
end

