-- ==== Sys2Proof/Laws/Memory.lean ====
section
/-! SUPPORT. The laws of the output memory: read after write, everything else as before, and the canonical form. -/

-- One theorem is checked at a time, to keep memory down.
set_option Elab.async false

namespace Sys2Proof.Machine

/-- A byte just written is read back. -/
theorem Memory.read_write_self (m : Memory) (a : Nat) (v : Byte) : Memory.read (Memory.write m a v) a = some v := by
  induction m with
  | nil => simp [Memory.write, Memory.read]
  | cons e m ih =>
    obtain ⟨b, w⟩ := e
    simp only [Memory.write]
    split
    · simp [Memory.read]
    · split
      · simp [Memory.read]
      · rename_i h₁ h₂
        simp [Memory.read, h₂, ih]

/-- A write leaves every other address alone. -/
theorem Memory.read_write_of_ne (m : Memory) {a a' : Nat} (v : Byte) (h : a' ≠ a) :
    Memory.read (Memory.write m a v) a' = Memory.read m a' := by
  induction m with
  | nil => simp [Memory.write, Memory.read, h]
  | cons e m ih =>
    obtain ⟨b, w⟩ := e
    simp only [Memory.write]
    split
    · simp [Memory.read, h]
    · split
      · rename_i h₁ h₂
        subst h₂
        simp [Memory.read, h]
      · simp only [Memory.read, ih]

/-- Outside the bytes written, memory reads as before. -/
theorem Memory.read_writeBytes_of_outside (m : Memory) (a : Nat) (vs : List Byte) {a' : Nat}
    (h : a' < a ∨ a + vs.length ≤ a') : Memory.read (Memory.writeBytes m a vs) a' = Memory.read m a' := by
  induction vs generalizing m a with
  | nil => rfl
  | cons v vs ih =>
    simp only [List.length_cons] at h
    rw [Memory.writeBytes, ih _ _ (by omega), Memory.read_write_of_ne _ _ (by omega)]

/-- The bytes written are read back, in order. -/
theorem Memory.read_writeBytes (m : Memory) (a : Nat) (vs : List Byte) (k : Nat) (h : k < vs.length) :
    Memory.read (Memory.writeBytes m a vs) (a + k) = vs[k]? := by
  induction vs generalizing m a k with
  | nil => simp at h
  | cons v vs ih =>
    rw [Memory.writeBytes]
    cases k with
    | zero =>
      rw [Memory.read_writeBytes_of_outside _ _ _ (by omega)]
      simpa using Memory.read_write_self m a v
    | succ k =>
      have := ih (Memory.write m a v) (a + 1) k (by simpa using h)
      simpa [Nat.add_assoc, Nat.add_comm 1 k] using this

/-- The addresses a write lists are the old ones and its own. -/
theorem Memory.mem_write (m : Memory) (a : Nat) (v : Byte) {e : Host.Cell} (h : e ∈ Memory.write m a v) :
    e = (a, v) ∨ e ∈ m := by
  induction m with
  | nil => simpa [Memory.write] using h
  | cons b m ih =>
    obtain ⟨b, w⟩ := b
    simp only [Memory.write] at h
    split at h
    · simpa using h
    · split at h
      · rcases List.mem_cons.1 h with h | h
        · exact .inl h
        · exact .inr (List.mem_cons_of_mem _ h)
      · rcases List.mem_cons.1 h with h | h
        · exact .inr (h ▸ List.mem_cons_self ..)
        · exact (ih h).imp_right (List.mem_cons_of_mem _)

/-- A write keeps the canonical form. -/
theorem Memory.wf_write (m : Memory) (a : Nat) (v : Byte) (h : Memory.wf m) : Memory.wf (Memory.write m a v) := by
  induction m with
  | nil => simp [Memory.write, Memory.wf]
  | cons e m ih =>
    obtain ⟨b, w⟩ := e
    simp only [Memory.wf, List.map_cons, List.pairwise_cons, List.mem_map, forall_exists_index, and_imp] at h
    have hm : Memory.wf m := h.2
    simp only [Memory.write]
    split
    · rename_i hab
      simp only [Memory.wf, List.map_cons, List.pairwise_cons, List.mem_cons, List.mem_map, forall_eq_or_imp]
      refine ⟨⟨hab, ?_⟩, ?_, hm⟩
      · rintro _ ⟨e, he, rfl⟩
        exact hab.trans (h.1 _ e he rfl)
      · rintro _ ⟨e, he, rfl⟩
        exact h.1 _ e he rfl
    · split
      · rename_i h₁ h₂
        subst h₂
        simp only [Memory.wf, List.map_cons, List.pairwise_cons, List.mem_map]
        exact ⟨fun x ⟨e, he, hx⟩ => h.1 x e he hx, hm⟩
      · rename_i h₁ h₂
        simp only [Memory.wf, List.map_cons, List.pairwise_cons, List.mem_map]
        refine ⟨?_, ih hm⟩
        rintro _ ⟨e, he, rfl⟩
        rcases Memory.mem_write m a v he with rfl | he
        · simp only; omega
        · exact h.1 _ e he rfl

/-- Writing bytes keeps the canonical form of a buffer they fit in. -/
theorem OutBuffer.wf_writeBytes (b : OutBuffer) (a : Nat) (vs : List Byte) (h : b.wf) (fits : a + vs.length ≤ b.len) :
    OutBuffer.wf { b with mem := Memory.writeBytes b.mem a vs } := by
  obtain ⟨len, m⟩ := b
  induction vs generalizing m a with
  | nil => exact h
  | cons v vs ih =>
    simp only [List.length_cons] at fits
    refine ih (a + 1) (Memory.write m a v) ⟨Memory.wf_write m a v h.1, fun e he => ?_⟩ (by simp only at fits ⊢; omega)
    rcases Memory.mem_write m a v he with rfl | he
    · simp only at fits ⊢; omega
    · exact h.2 e he

/-- An empty buffer is in canonical form. -/
theorem OutBuffer.wf_empty (n : Nat) : OutBuffer.wf { len := n, mem := [] } := by
  simp [OutBuffer.wf, Memory.wf]

/-- The memory of State.reset is in canonical form: there is no buffer. -/
theorem State.reset_out_wf : ∀ b, State.reset.out = some b → b.wf := by
  intro b h; cases h

/-- `MemWrite` says all it can do: it fails where there is no buffer or no such byte, and else writes the bytes and
nothing more (20_memory.md R56). -/
theorem memWrite_ok {out : Option OutBuffer} {a : Nat} {vs : List Byte} {b' : OutBuffer} (h : memWrite out a vs = .ok b') :
    ∃ b, out = some b ∧ a + vs.length ≤ b.len ∧ b' = { b with mem := Memory.writeBytes b.mem a vs } := by
  unfold memWrite at h
  cases out with
  | none => cases h
  | some b =>
    simp only at h
    split at h
    · rename_i hfit
      exact ⟨b, rfl, hfit, by injection h with h; exact h.symm⟩
    · cases h

/-- `MemWrite` succeeds where the bytes exist. -/
theorem memWrite_of_room {b : OutBuffer} {a : Nat} {vs : List Byte} (h : a + vs.length ≤ b.len) :
    memWrite (some b) a vs = .ok { b with mem := Memory.writeBytes b.mem a vs } := by
  simp [memWrite, h]

/-- Reading `n` bytes all of which are written gives them. -/
theorem readBytes_of_written (m : Memory) (a n : Nat) (h : ∀ k, a ≤ k → k < a + n → (Memory.read m k).isSome) :
    ∃ vs, readBytes m a n = some vs ∧ vs.length = n ∧ ∀ k, k < n → vs[k]? = Memory.read m (a + k) := by
  induction n generalizing a with
  | zero => exact ⟨[], rfl, rfl, by simp⟩
  | succ n ih =>
    obtain ⟨v, hv⟩ := Option.isSome_iff_exists.1 (h a (Nat.le_refl _) (by omega))
    obtain ⟨vs, hvs, hl, hk⟩ := ih (a + 1) fun k h₁ h₂ => h k (by omega) (by omega)
    refine ⟨v :: vs, by simp [readBytes, hv, hvs], by simp [hl], fun k hk' => ?_⟩
    cases k with
    | zero => simp [hv]
    | succ k =>
      simpa [Nat.add_assoc, Nat.add_comm 1 k] using hk k (by omega)

end Sys2Proof.Machine
end

