-- ==== Sys2Proof/Laws/Operands.lean ====
section
/-! SUPPORT. The laws of the operand forms: byte arithmetic, the hash, cache slots, the bytes of a pixel. -/

-- One theorem is checked at a time, to keep memory down.
set_option Elab.async false

namespace Sys2Proof.Machine

/-- The value of a channel update (44_delta.md R181). -/
theorem addDelta_toNat (old : Byte) (d : Int) : ((addDelta old d).toNat : Int) = ((old.toNat : Int) + d) % 256 := by
  unfold addDelta
  rw [BitVec.toNat_ofInt]
  have : (0 : Int) ≤ ((old.toNat : Int) + d) % 256 := Int.emod_nonneg _ (by decide)
  simpa using this

/-- The hash is the sum mod 64 (43_index_cache.md R161), `CACHE_SLOTS` being 64 (00_scope.md R8 d). -/
theorem hash_toNat {c : Config} (hc : c.cacheSlots = 64) (q : Pixel) : (hash c q).toNat = hashSum c q % 64 := by
  simp [hash, hc, BitVec.toNat_ofNat]

@[simp] theorem cacheGet_cacheSet_self (cache : Vector Pixel 64) (i : Slot) (q : Pixel) :
    cacheGet (cacheSet cache i q) i = q := by
  simp [cacheGet, cacheSet]

theorem cacheGet_cacheSet_of_ne (cache : Vector Pixel 64) {i j : Slot} (q : Pixel) (h : j ≠ i) :
    cacheGet (cacheSet cache i q) j = cacheGet cache j := by
  have : i.toNat ≠ j.toNat := fun e => h (BitVec.eq_of_toNat_eq e.symm)
  simp [cacheGet, cacheSet, this]

@[simp] theorem cacheGet_replicate (q : Pixel) (i : Slot) : cacheGet (Vector.replicate 64 q) i = q := by
  simp [cacheGet]

/-- The slot the pixel hashes to holds it after the update (41_pixel_step.md R137). -/
theorem cacheGet_cacheUpdate_self (c : Config) (cache : Vector Pixel 64) (q : Pixel) :
    cacheGet (cacheUpdate c cache q) (hash c q) = q := by
  simp [cacheUpdate]

/-- The other 63 slots are unchanged (41_pixel_step.md R137). -/
theorem cacheGet_cacheUpdate_of_ne (c : Config) (cache : Vector Pixel 64) (q : Pixel) {i : Slot} (h : i ≠ hash c q) :
    cacheGet (cacheUpdate c cache q) i = cacheGet cache i := by
  simp [cacheUpdate, cacheGet_cacheSet_of_ne _ _ h]

/-- A pixel takes as many bytes as the stride (20_memory.md R55). -/
@[simp] theorem pixelBytes_length (channels : Byte) (q : Pixel) : (pixelBytes channels q).length = stride channels := by
  unfold pixelBytes stride; split <;> rfl

/-- Once the channel count is latched the stride is that count (20_memory.md R55). -/
theorem stride_eq (channels : Byte) (h : channels = 3 ∨ channels = 4) : stride channels = channels.toNat := by
  rcases h with rfl | rfl <;> rfl

end Sys2Proof.Machine
end

