-- ==== Sys2Proof/Laws/State.lean ====
section
/-! SUPPORT. The state updates of the machine, field by field: one lemma per field of each named update, so that no later
proof unfolds a record update. -/

-- One theorem is checked at a time, to keep memory down.
set_option Elab.async false

namespace Sys2Proof.Machine

/-! ### `raise` (60_exceptions.md R213) -/

@[simp] theorem raise_cfg (e : FormatError) (s : State) : (raise e s).cfg = s.cfg := by
  unfold raise; split <;> rfl

@[simp] theorem raise_stream (e : FormatError) (s : State) : (raise e s).stream = s.stream := by
  unfold raise; split <;> rfl

@[simp] theorem raise_cmd (e : FormatError) (s : State) : (raise e s).cmd = s.cmd := by
  unfold raise; split <;> rfl

@[simp] theorem raise_px (e : FormatError) (s : State) : (raise e s).px = s.px := by
  unfold raise; split <;> rfl

@[simp] theorem raise_run (e : FormatError) (s : State) : (raise e s).run = s.run := by
  unfold raise; split <;> rfl

@[simp] theorem raise_pos (e : FormatError) (s : State) : (raise e s).pos = s.pos := by
  unfold raise; split <;> rfl

@[simp] theorem raise_cache (e : FormatError) (s : State) : (raise e s).cache = s.cache := by
  unfold raise; split <;> rfl

@[simp] theorem raise_width (e : FormatError) (s : State) : (raise e s).width = s.width := by
  unfold raise; split <;> rfl

@[simp] theorem raise_height (e : FormatError) (s : State) : (raise e s).height = s.height := by
  unfold raise; split <;> rfl

@[simp] theorem raise_channels (e : FormatError) (s : State) : (raise e s).channels = s.channels := by
  unfold raise; split <;> rfl

@[simp] theorem raise_colorspace (e : FormatError) (s : State) : (raise e s).colorspace = s.colorspace := by
  unfold raise; split <;> rfl

@[simp] theorem raise_npx (e : FormatError) (s : State) : (raise e s).npx = s.npx := by
  unfold raise; split <;> rfl

@[simp] theorem raise_phase (e : FormatError) (s : State) : (raise e s).phase = .error := by
  unfold raise; split <;> rfl

@[simp] theorem raise_err (e : FormatError) (s : State) : (raise e s).err = some e := by
  unfold raise; split <;> rfl

@[simp] theorem raise_out (e : FormatError) (s : State) : (raise e s).out = s.out := by
  unfold raise; split <;> rfl

/-- Outside a pixel step an error leaves the cursor. -/
theorem raise_p_of_ne (e : FormatError) (s : State) (h : s.phase ≠ .pixels) : (raise e s).p = s.p := by
  unfold raise; rw [if_neg h]

theorem raise_draws_of_ne (e : FormatError) (s : State) (h : s.phase ≠ .pixels) : (raise e s).draws = s.draws := by
  unfold raise; rw [if_neg h]

/-! ### `State.afterPixel` (41_pixel_step.md R131) -/

@[simp] theorem State.afterPixel_cfg (s : State) (q : Pixel) (run : BitVec 6) (n : Nat) (out : OutBuffer) :
    (s.afterPixel q run n out).cfg = s.cfg := rfl

@[simp] theorem State.afterPixel_stream (s : State) (q : Pixel) (run : BitVec 6) (n : Nat) (out : OutBuffer) :
    (s.afterPixel q run n out).stream = s.stream := rfl

@[simp] theorem State.afterPixel_cmd (s : State) (q : Pixel) (run : BitVec 6) (n : Nat) (out : OutBuffer) :
    (s.afterPixel q run n out).cmd = s.cmd := rfl

@[simp] theorem State.afterPixel_px (s : State) (q : Pixel) (run : BitVec 6) (n : Nat) (out : OutBuffer) :
    (s.afterPixel q run n out).px = q := rfl

@[simp] theorem State.afterPixel_run (s : State) (q : Pixel) (run : BitVec 6) (n : Nat) (out : OutBuffer) :
    (s.afterPixel q run n out).run = run := rfl

@[simp] theorem State.afterPixel_p (s : State) (q : Pixel) (run : BitVec 6) (n : Nat) (out : OutBuffer) :
    (s.afterPixel q run n out).p = s.p + BitVec.ofNat 32 n := rfl

@[simp] theorem State.afterPixel_pos (s : State) (q : Pixel) (run : BitVec 6) (n : Nat) (out : OutBuffer) :
    (s.afterPixel q run n out).pos = s.pos + 1 := rfl

@[simp] theorem State.afterPixel_cache (s : State) (q : Pixel) (run : BitVec 6) (n : Nat) (out : OutBuffer) :
    (s.afterPixel q run n out).cache = cacheUpdate s.cfg s.cache q := rfl

@[simp] theorem State.afterPixel_width (s : State) (q : Pixel) (run : BitVec 6) (n : Nat) (out : OutBuffer) :
    (s.afterPixel q run n out).width = s.width := rfl

@[simp] theorem State.afterPixel_height (s : State) (q : Pixel) (run : BitVec 6) (n : Nat) (out : OutBuffer) :
    (s.afterPixel q run n out).height = s.height := rfl

@[simp] theorem State.afterPixel_channels (s : State) (q : Pixel) (run : BitVec 6) (n : Nat) (out : OutBuffer) :
    (s.afterPixel q run n out).channels = s.channels := rfl

@[simp] theorem State.afterPixel_colorspace (s : State) (q : Pixel) (run : BitVec 6) (n : Nat) (out : OutBuffer) :
    (s.afterPixel q run n out).colorspace = s.colorspace := rfl

@[simp] theorem State.afterPixel_npx (s : State) (q : Pixel) (run : BitVec 6) (n : Nat) (out : OutBuffer) :
    (s.afterPixel q run n out).npx = s.npx := rfl

@[simp] theorem State.afterPixel_phase (s : State) (q : Pixel) (run : BitVec 6) (n : Nat) (out : OutBuffer) :
    (s.afterPixel q run n out).phase = phaseAfterPixel s.pos s.npx := rfl

@[simp] theorem State.afterPixel_err (s : State) (q : Pixel) (run : BitVec 6) (n : Nat) (out : OutBuffer) :
    (s.afterPixel q run n out).err = s.err := rfl

@[simp] theorem State.afterPixel_out (s : State) (q : Pixel) (run : BitVec 6) (n : Nat) (out : OutBuffer) :
    (s.afterPixel q run n out).out = some out := rfl

@[simp] theorem State.afterPixel_draws (s : State) (q : Pixel) (run : BitVec 6) (n : Nat) (out : OutBuffer) :
    (s.afterPixel q run n out).draws = s.draws := rfl

/-! ### `latchHeader` (40_header.md R111) -/

@[simp] theorem latchHeader_cfg (w h : Word) (ch cs : Byte) (s : State) :
    (latchHeader w h ch cs s).cfg = s.cfg := rfl

@[simp] theorem latchHeader_stream (w h : Word) (ch cs : Byte) (s : State) :
    (latchHeader w h ch cs s).stream = s.stream := rfl

@[simp] theorem latchHeader_cmd (w h : Word) (ch cs : Byte) (s : State) :
    (latchHeader w h ch cs s).cmd = s.cmd := rfl

@[simp] theorem latchHeader_px (w h : Word) (ch cs : Byte) (s : State) :
    (latchHeader w h ch cs s).px = s.cfg.pxInit := rfl

@[simp] theorem latchHeader_run (w h : Word) (ch cs : Byte) (s : State) :
    (latchHeader w h ch cs s).run = 0 := rfl

@[simp] theorem latchHeader_p (w h : Word) (ch cs : Byte) (s : State) :
    (latchHeader w h ch cs s).p = BitVec.ofNat 32 s.cfg.hdrLen := rfl

/-- The cursor behind the header is 14, with parameters that meet 00_scope.md R8 (10_state.md R44). -/
theorem latchHeader_p_eq (w h : Word) (ch cs : Byte) {s : State} (hw : s.cfg.Wf) : (latchHeader w h ch cs s).p = 14 := by
  rw [latchHeader_p, hw.headerLength]; rfl

@[simp] theorem latchHeader_pos (w h : Word) (ch cs : Byte) (s : State) :
    (latchHeader w h ch cs s).pos = 0 := rfl

@[simp] theorem latchHeader_cache (w h : Word) (ch cs : Byte) (s : State) :
    (latchHeader w h ch cs s).cache = Vector.replicate 64 (cacheSeed s.cfg ch) := rfl

@[simp] theorem latchHeader_width (w h : Word) (ch cs : Byte) (s : State) :
    (latchHeader w h ch cs s).width = w := rfl

@[simp] theorem latchHeader_height (w h : Word) (ch cs : Byte) (s : State) :
    (latchHeader w h ch cs s).height = h := rfl

@[simp] theorem latchHeader_channels (w h : Word) (ch cs : Byte) (s : State) :
    (latchHeader w h ch cs s).channels = ch := rfl

@[simp] theorem latchHeader_colorspace (w h : Word) (ch cs : Byte) (s : State) :
    (latchHeader w h ch cs s).colorspace = cs := rfl

@[simp] theorem latchHeader_npx (w h : Word) (ch cs : Byte) (s : State) :
    (latchHeader w h ch cs s).npx = w * h := rfl

@[simp] theorem latchHeader_phase (w h : Word) (ch cs : Byte) (s : State) :
    (latchHeader w h ch cs s).phase = .pixels := rfl

@[simp] theorem latchHeader_err (w h : Word) (ch cs : Byte) (s : State) :
    (latchHeader w h ch cs s).err = s.err := rfl

@[simp] theorem latchHeader_out (w h : Word) (ch cs : Byte) (s : State) :
    (latchHeader w h ch cs s).out = some { len := (w * h).toNat * ch.toNat, mem := [] } := rfl

@[simp] theorem latchHeader_draws (w h : Word) (ch cs : Byte) (s : State) :
    (latchHeader w h ch cs s).draws = s.draws := rfl

/-! ### `startStep` (70_reset_and_hazards.md R252) -/

@[simp] theorem startStep_cfg (stream : List Byte) (s : State) :
    (startStep stream s).cfg = s.cfg := rfl

@[simp] theorem startStep_stream (stream : List Byte) (s : State) :
    (startStep stream s).stream = stream := rfl

@[simp] theorem startStep_cmd (stream : List Byte) (s : State) :
    (startStep stream s).cmd = none := rfl

@[simp] theorem startStep_px (stream : List Byte) (s : State) :
    (startStep stream s).px = s.px := rfl

@[simp] theorem startStep_run (stream : List Byte) (s : State) :
    (startStep stream s).run = s.run := rfl

@[simp] theorem startStep_p (stream : List Byte) (s : State) :
    (startStep stream s).p = 0 := rfl

@[simp] theorem startStep_pos (stream : List Byte) (s : State) :
    (startStep stream s).pos = s.pos := rfl

@[simp] theorem startStep_cache (stream : List Byte) (s : State) :
    (startStep stream s).cache = s.cache := rfl

@[simp] theorem startStep_width (stream : List Byte) (s : State) :
    (startStep stream s).width = s.width := rfl

@[simp] theorem startStep_height (stream : List Byte) (s : State) :
    (startStep stream s).height = s.height := rfl

@[simp] theorem startStep_channels (stream : List Byte) (s : State) :
    (startStep stream s).channels = s.channels := rfl

@[simp] theorem startStep_colorspace (stream : List Byte) (s : State) :
    (startStep stream s).colorspace = s.colorspace := rfl

@[simp] theorem startStep_npx (stream : List Byte) (s : State) :
    (startStep stream s).npx = s.npx := rfl

@[simp] theorem startStep_phase (stream : List Byte) (s : State) :
    (startStep stream s).phase = .header := rfl

@[simp] theorem startStep_err (stream : List Byte) (s : State) :
    (startStep stream s).err = none := rfl

@[simp] theorem startStep_out (stream : List Byte) (s : State) :
    (startStep stream s).out = none := rfl

@[simp] theorem startStep_draws (stream : List Byte) (s : State) :
    (startStep stream s).draws = s.draws := rfl

/-! ### `hardReset` (70_reset_and_hazards.md R250) -/

@[simp] theorem hardReset_cfg (s : State) :
    (hardReset s).cfg = s.cfg := rfl

@[simp] theorem hardReset_stream (s : State) :
    (hardReset s).stream = State.reset.stream := rfl

@[simp] theorem hardReset_cmd (s : State) :
    (hardReset s).cmd = State.reset.cmd := rfl

@[simp] theorem hardReset_px (s : State) :
    (hardReset s).px = State.reset.px := rfl

@[simp] theorem hardReset_run (s : State) :
    (hardReset s).run = State.reset.run := rfl

@[simp] theorem hardReset_p (s : State) :
    (hardReset s).p = State.reset.p := rfl

@[simp] theorem hardReset_pos (s : State) :
    (hardReset s).pos = State.reset.pos := rfl

@[simp] theorem hardReset_cache (s : State) :
    (hardReset s).cache = State.reset.cache := rfl

@[simp] theorem hardReset_width (s : State) :
    (hardReset s).width = State.reset.width := rfl

@[simp] theorem hardReset_height (s : State) :
    (hardReset s).height = State.reset.height := rfl

@[simp] theorem hardReset_channels (s : State) :
    (hardReset s).channels = State.reset.channels := rfl

@[simp] theorem hardReset_colorspace (s : State) :
    (hardReset s).colorspace = State.reset.colorspace := rfl

@[simp] theorem hardReset_npx (s : State) :
    (hardReset s).npx = State.reset.npx := rfl

@[simp] theorem hardReset_phase (s : State) :
    (hardReset s).phase = State.reset.phase := rfl

@[simp] theorem hardReset_err (s : State) :
    (hardReset s).err = State.reset.err := rfl

@[simp] theorem hardReset_out (s : State) :
    (hardReset s).out = State.reset.out := rfl

@[simp] theorem hardReset_draws (s : State) :
    (hardReset s).draws = s.draws := rfl

/-! ### `State.present` (log 3) -/

@[simp] theorem State.present_cfg (s : State) (c : HostCommand) :
    (s.present c).cfg = s.cfg := rfl

@[simp] theorem State.present_stream (s : State) (c : HostCommand) :
    (s.present c).stream = s.stream := rfl

@[simp] theorem State.present_cmd (s : State) (c : HostCommand) :
    (s.present c).cmd = some c := rfl

@[simp] theorem State.present_px (s : State) (c : HostCommand) :
    (s.present c).px = s.px := rfl

@[simp] theorem State.present_run (s : State) (c : HostCommand) :
    (s.present c).run = s.run := rfl

@[simp] theorem State.present_p (s : State) (c : HostCommand) :
    (s.present c).p = s.p := rfl

@[simp] theorem State.present_pos (s : State) (c : HostCommand) :
    (s.present c).pos = s.pos := rfl

@[simp] theorem State.present_cache (s : State) (c : HostCommand) :
    (s.present c).cache = s.cache := rfl

@[simp] theorem State.present_width (s : State) (c : HostCommand) :
    (s.present c).width = s.width := rfl

@[simp] theorem State.present_height (s : State) (c : HostCommand) :
    (s.present c).height = s.height := rfl

@[simp] theorem State.present_channels (s : State) (c : HostCommand) :
    (s.present c).channels = s.channels := rfl

@[simp] theorem State.present_colorspace (s : State) (c : HostCommand) :
    (s.present c).colorspace = s.colorspace := rfl

@[simp] theorem State.present_npx (s : State) (c : HostCommand) :
    (s.present c).npx = s.npx := rfl

@[simp] theorem State.present_phase (s : State) (c : HostCommand) :
    (s.present c).phase = s.phase := rfl

@[simp] theorem State.present_err (s : State) (c : HostCommand) :
    (s.present c).err = s.err := rfl

@[simp] theorem State.present_out (s : State) (c : HostCommand) :
    (s.present c).out = s.out := rfl

@[simp] theorem State.present_draws (s : State) (c : HostCommand) :
    (s.present c).draws = s.draws := rfl

end Sys2Proof.Machine
end

