-- ==== Sys2Proof/Laws/Ops.lean ====
section
/-! SUPPORT. Everything each shared operation of the machine can do, said once. -/

-- One theorem is checked at a time, to keep memory down.
set_option Elab.async false

namespace Sys2Proof.Machine

/-- A pixel's commit completes only where its output bytes exist, and then it is `State.afterPixel` (41_pixel_step.md
R131). -/
theorem commitPixel_next {s t : State} {q : Pixel} {run : BitVec 6} {n : Nat} (h : commitPixel s q run n = .next t) :
    ∃ b, s.out = some b ∧ s.pos.toNat * stride s.channels + stride s.channels ≤ b.len ∧
      t = s.afterPixel q run n
        { b with mem := Memory.writeBytes b.mem (s.pos.toNat * stride s.channels) (pixelBytes s.channels q) } := by
  unfold commitPixel at h
  split at h
  · cases h
  · rename_i out hout
    obtain ⟨b, hb, hfit, rfl⟩ := memWrite_ok hout
    rw [pixelBytes_length] at hfit
    cases h
    exact ⟨b, hb, hfit, rfl⟩

/-- A pixel's commit completes where its output bytes exist. -/
theorem commitPixel_of_room {s : State} (q : Pixel) (run : BitVec 6) (n : Nat) {b : OutBuffer} (hb : s.out = some b)
    (hfit : s.pos.toNat * stride s.channels + stride s.channels ≤ b.len) :
    commitPixel s q run n = .next (s.afterPixel q run n
      { b with mem := Memory.writeBytes b.mem (s.pos.toNat * stride s.channels) (pixelBytes s.channels q) }) := by
  unfold commitPixel
  rw [hb, memWrite_of_room (by rw [pixelBytes_length]; exact hfit)]

/-- A chunk's step completes in PIXELS only, as an error when the chunk reaches past `LEN` and as a commit otherwise
(41_pixel_step.md R132, R136). -/
theorem chunkStep_next {s t : State} {n : Nat} {q : Pixel} {run : BitVec 6} (h : chunkStep s n q run = .next t) :
    s.phase = .pixels ∧ ((s.len < s.p.toNat + n ∧ t = raise .truncated s) ∨
      (s.p.toNat + n ≤ s.len ∧ commitPixel s q run n = .next t)) := by
  unfold chunkStep at h
  split at h
  · cases h
  · rename_i hp
    refine ⟨by simpa using hp, ?_⟩
    split at h
    · rename_i hlen; cases h; exact .inl ⟨hlen, rfl⟩
    · exact .inr ⟨by omega, h⟩

/-- In PIXELS, with the chunk's bytes there, a chunk's step is the commit. -/
theorem chunkStep_of_bytes {s : State} {n : Nat} (q : Pixel) (run : BitVec 6) (hp : s.phase = .pixels)
    (hlen : s.p.toNat + n ≤ s.len) : chunkStep s n q run = commitPixel s q run n := by
  unfold chunkStep
  rw [if_neg (by simp [hp]), if_neg (by omega)]

/-- In PIXELS, with bytes missing, a chunk's step is the error. -/
theorem chunkStep_of_cut {s : State} {n : Nat} (q : Pixel) (run : BitVec 6) (hp : s.phase = .pixels)
    (hlen : s.len < s.p.toNat + n) : chunkStep s n q run = .next (raise .truncated s) := by
  unfold chunkStep
  rw [if_neg (by simp [hp]), if_pos hlen]

/-- The six chunk meanings are one step each of the chunk's length and effect (41_pixel_step.md R131, R135). -/
theorem exec_chunk {i : Instr} (h : i.recordKind = .chunk) (s : State) :
    exec i s = chunkStep s i.length (chunkEffect s.cfg s.px s.cache i).1 (chunkEffect s.cfg s.px s.cache i).2 := by
  cases i <;> first | rfl | cases h

/-- Where the checks pass, no check fails (40_header.md R111): the meaning of a header that passes. -/
theorem execHeader_pass {m w h : Word} {ch : Byte} (cs : Byte) {s : State} (hp : s.phase = .header)
    (he : headerError s.cfg s.len m w h ch = none) : execHeader m w h ch cs s = .next (latchHeader w h ch cs s) := by
  simp [execHeader, hp, he]

/-- The meaning of a header with a failing check. -/
theorem execHeader_fail {m w h : Word} {ch : Byte} (cs : Byte) {s : State} {e : FormatError} (hp : s.phase = .header)
    (he : headerError s.cfg s.len m w h ch = some e) : execHeader m w h ch cs s = .next (raise e s) := by
  simp [execHeader, hp, he]

/-- The meaning of a trailer that passes. -/
theorem execTrailer_pass {pad : List Byte} {s : State} (hp : s.phase = .trailer)
    (he : trailerError s.cfg s.p.toNat s.len pad = none) : execTrailer pad s = .next { s with phase := .done } := by
  simp [execTrailer, hp, he]

/-- The meaning of a trailer with a failing check. -/
theorem execTrailer_fail {pad : List Byte} {s : State} {e : FormatError} (hp : s.phase = .trailer)
    (he : trailerError s.cfg s.p.toNat s.len pad = some e) : execTrailer pad s = .next (raise e s) := by
  simp [execTrailer, hp, he]

end Sys2Proof.Machine
end

