-- ==== Sys2Proof/Laws/PerInstr.lean ====
section
/-! SUPPORT. Statements made per instruction. Family RecordLength: an instruction's encoding has its length
(30_encoding.md R80, R83). -/

-- One theorem is checked at a time, to keep memory down.
set_option Elab.async false

namespace Sys2Proof.Laws.RecordLength

/-- The encoding of a well-formed instruction has the instruction's length, which is at least one byte unless it is a
trailer. -/
def Statement (i : Instr) : Prop :=
  ∀ c : Config, i.wellFormed c = true →
    (encode c i).length = i.length ∧ (i.recordKind ≠ .trailer → 1 ≤ i.length)

theorem rgb (r g b : Byte) : Statement (.rgb r g b) := fun _ _ => ⟨rfl, fun _ => by simp [Instr.length]⟩

theorem rgba (r g b a : Byte) : Statement (.rgba r g b a) := fun _ _ => ⟨rfl, fun _ => by simp [Instr.length]⟩

theorem index (idx : Slot) : Statement (.index idx) := fun _ _ => ⟨rfl, fun _ => by simp [Instr.length]⟩

theorem diff (dr dg db : BitVec 2) : Statement (.diff dr dg db) := fun _ _ => ⟨rfl, fun _ => by simp [Instr.length]⟩

theorem luma (dg : BitVec 6) (drDg dbDg : BitVec 4) : Statement (.luma dg drDg dbDg) :=
  fun _ _ => ⟨rfl, fun _ => by simp [Instr.length]⟩

theorem run (rl : BitVec 6) : Statement (.run rl) := fun _ _ => ⟨rfl, fun _ => by simp [Instr.length]⟩

theorem header (magic width height : Word) (channels colorspace : Byte) :
    Statement (.header magic width height channels colorspace) :=
  fun _ _ => ⟨rfl, fun _ => by simp [Instr.length]⟩

theorem trailer (pad : List Byte) : Statement (.trailer pad) := fun _ _ => ⟨rfl, fun h => absurd rfl h⟩

end Sys2Proof.Laws.RecordLength
end

