-- ==== Sys2Proof/Laws/Step.lean ====
section
/-! SUPPORT. What a step can do, said once. -/

-- One theorem is checked at a time, to keep memory down.
set_option Elab.async false

namespace Sys2Proof.Machine

/-- The host's run of one step more, by the step's outcome. -/
theorem run_succ_of_step {M : Host.Core} {s : M.State} {n : Nat} {o : Host.Outcome M.State M.Fault M.Refusal}
    (h : M.step s = o) :
    M.run (n + 1) s = match (generalizing := false) o with
      | .next t => M.run n t
      | .fault r => .fault r
      | .refused r => .refused r := by
  cases o <;> simp [Host.Core.run, h]

/-- `steps` is the host's run of the machine. -/
theorem steps_eq_run (n : Nat) (s : State) : steps n s = core.run n s := by
  induction n generalizing s with
  | zero => rfl
  | succ n ih =>
    rw [steps]
    cases h : step s with
    | next t => exact (ih t).trans (run_succ_of_step (M := core) h).symm
    | fault r => exact (run_succ_of_step (M := core) h).symm
    | refused r => exact (run_succ_of_step (M := core) h).symm

/-- Without a command, a step of phase HEADER. -/
theorem step_header {s : State} (hc : s.cmd = none) (hp : s.phase = .header) :
    (∃ m w h ch cs rest, decodeHeader s.stream = .ok (.header m w h ch cs, rest) ∧
      step s = execHeader m w h ch cs s) ∨
    (s.len < 14 ∧ step s = .next (raise .tooShort s)) := by
  rcases hd : decodeHeader s.stream with e | ⟨i, rest⟩
  · obtain ⟨rfl, hl⟩ := decodeHeader_error hd
    exact .inr ⟨hl, by simp [step, hc, fetch, hp, decode, hd, Fetched.ofDecoded, DecodeError.toFormatError]⟩
  · obtain ⟨⟨m, w, h, ch, cs, rfl⟩, -, -⟩ := decodeHeader_ok hd
    exact .inl ⟨m, w, h, ch, cs, rest, rfl, by simp [step, hc, fetch, hp, decode, hd, Fetched.ofDecoded, exec]⟩

/-- Without a command, a step of phase PIXELS that finds a run pending. -/
theorem step_carryOver {s : State} (hc : s.cmd = none) (hp : s.phase = .pixels) (hr : s.run ≠ 0) :
    step s = carryOver s := by
  have hr' : ¬ s.run = 0#6 := hr
  simp [step, hc, fetch, hp, hr']

/-- Without a command, a step of phase PIXELS that fetches a chunk. -/
theorem step_chunk {s : State} (hc : s.cmd = none) (hp : s.phase = .pixels) (hr : s.run = 0) :
    (∃ i rest, decodeChunk s.cfg s.fromCursor = .ok (i, rest) ∧ step s = exec i s) ∨
    (∃ e, decodeChunk s.cfg s.fromCursor = .error e ∧ step s = .next (raise .truncated s)) := by
  rcases hd : decodeChunk s.cfg s.fromCursor with e | ⟨i, rest⟩
  · obtain rfl := decodeChunk_error hd
    exact .inr ⟨_, rfl, by simp [step, hc, fetch, hp, hr, decode, hd, Fetched.ofDecoded, DecodeError.toFormatError]⟩
  · exact .inl ⟨i, rest, rfl, by simp [step, hc, fetch, hp, hr, decode, hd, Fetched.ofDecoded]⟩

/-- Without a command, a step of phase TRAILER. -/
theorem step_trailer {s : State} (hc : s.cmd = none) (hp : s.phase = .trailer) :
    (s.cfg.padLen ≤ s.fromCursor.length ∧ step s = execTrailer (s.fromCursor.take s.cfg.padLen) s) ∨
    (s.fromCursor.length < s.cfg.padLen ∧ step s = .next (raise .truncated s)) := by
  rcases hd : decodeTrailer s.cfg s.fromCursor with e | ⟨i, rest⟩
  · obtain ⟨rfl, hl⟩ := decodeTrailer_error hd
    exact .inr ⟨hl, by simp [step, hc, fetch, hp, decode, hd, Fetched.ofDecoded, DecodeError.toFormatError]⟩
  · obtain ⟨rfl, hl, -⟩ := decodeTrailer_ok hd
    exact .inl ⟨hl, by simp [step, hc, fetch, hp, decode, hd, Fetched.ofDecoded, exec]⟩

/-- How a pixel step comes by its pixel: a chunk decoded at the cursor, or the run. -/
def PixelSource (s : State) (q : Pixel) (run : BitVec 6) (n : Nat) : Prop :=
  (s.run = 0 ∧ ∃ i rest, decodeChunk s.cfg s.fromCursor = .ok (i, rest) ∧ n = i.length ∧
    (q, run) = chunkEffect s.cfg s.px s.cache i) ∨
  (s.run ≠ 0 ∧ n = 0 ∧ q = s.px ∧ run = s.run - 1)

/-- A step that gives a next state is a command taken, a header step, a pixel step or a trailer step (00_scope.md R12),
and each is an error taken or the update its rule gives. -/
theorem step_next {s t : State} (h : step s = .next t) :
    (∃ c, s.cmd = some c ∧ takeCommand c s = .next t) ∨
    (s.cmd = none ∧ s.phase = .header ∧
      ((s.len < 14 ∧ t = raise .tooShort s) ∨
        ∃ m w ht ch cs rest, decodeHeader s.stream = .ok (.header m w ht ch cs, rest) ∧
          ((∃ e, headerError s.cfg s.len m w ht ch = some e ∧ t = raise e s) ∨
            (headerError s.cfg s.len m w ht ch = none ∧ t = latchHeader w ht ch cs s)))) ∨
    (s.cmd = none ∧ s.phase = .pixels ∧
      ((s.run = 0 ∧ t = raise .truncated s) ∨
        ∃ q run n b, PixelSource s q run n ∧ s.out = some b ∧
          s.pos.toNat * stride s.channels + stride s.channels ≤ b.len ∧
          t = s.afterPixel q run n
            { b with mem := Memory.writeBytes b.mem (s.pos.toNat * stride s.channels) (pixelBytes s.channels q) })) ∨
    (s.cmd = none ∧ s.phase = .trailer ∧
      ((s.fromCursor.length < s.cfg.padLen ∧ t = raise .truncated s) ∨
        (s.cfg.padLen ≤ s.fromCursor.length ∧
          ((∃ e, trailerError s.cfg s.p.toNat s.len (s.fromCursor.take s.cfg.padLen) = some e ∧ t = raise e s) ∨
            (trailerError s.cfg s.p.toNat s.len (s.fromCursor.take s.cfg.padLen) = none ∧
              t = { s with phase := .done }))))) := by
  obtain hc | ⟨c, hc⟩ := Option.eq_none_or_eq_some s.cmd
  · right
    cases hp : s.phase with
    | header =>
      left
      refine ⟨hc, rfl, ?_⟩
      rcases step_header hc hp with ⟨m, w, ht, ch, cs, rest, hd, he⟩ | ⟨hl, he⟩
      · right
        refine ⟨m, w, ht, ch, cs, rest, hd, ?_⟩
        rw [he] at h
        cases hh : headerError s.cfg s.len m w ht ch with
        | none => rw [execHeader_pass cs hp hh] at h; cases h; exact .inr ⟨rfl, rfl⟩
        | some e => rw [execHeader_fail cs hp hh] at h; cases h; exact .inl ⟨e, rfl, rfl⟩
      · rw [he] at h; cases h; exact .inl ⟨hl, rfl⟩
    | pixels =>
      right; left
      refine ⟨hc, rfl, ?_⟩
      by_cases hr : s.run = 0
      · rcases step_chunk hc hp hr with ⟨i, rest, hd, he⟩ | ⟨e, hd, he⟩
        · rw [he, exec_chunk (decodeChunk_ok hd).1] at h
          obtain ⟨-, ⟨-, rfl⟩ | ⟨-, hcommit⟩⟩ := chunkStep_next h
          · exact .inl ⟨hr, rfl⟩
          · obtain ⟨b, hb, hfit, rfl⟩ := commitPixel_next hcommit
            exact .inr ⟨_, _, _, b, .inl ⟨hr, i, rest, hd, rfl, rfl⟩, hb, hfit, rfl⟩
        · rw [he] at h; cases h; exact .inl ⟨hr, rfl⟩
      · rw [step_carryOver hc hp hr] at h
        obtain ⟨b, hb, hfit, rfl⟩ := commitPixel_next h
        exact .inr ⟨_, _, _, b, .inr ⟨hr, rfl, rfl, rfl⟩, hb, hfit, rfl⟩
    | trailer =>
      right; right
      refine ⟨hc, rfl, ?_⟩
      rcases step_trailer hc hp with ⟨hl, he⟩ | ⟨hl, he⟩
      · right
        refine ⟨hl, ?_⟩
        rw [he] at h
        cases hh : trailerError s.cfg s.p.toNat s.len (s.fromCursor.take s.cfg.padLen) with
        | none => rw [execTrailer_pass hp hh] at h; cases h; exact .inr ⟨rfl, rfl⟩
        | some e => rw [execTrailer_fail hp hh] at h; cases h; exact .inl ⟨e, rfl, rfl⟩
      · rw [he] at h; cases h; exact .inl ⟨hl, rfl⟩
    | _ => simp [step, hc, fetch, hp] at h
  · exact .inl ⟨c, hc, by simpa [step, hc] using h⟩

end Sys2Proof.Machine
end

