-- ==== Sys2Proof/Tests/Slice0.lean ====
section
/-! SUPPORT. Tests of the model, and for every statement with hypotheses a witness that meets them. The expected values are
the spec's: 95_test_vectors.md, by the vector's name, and the tables of the rules cited. -/

namespace Sys2Proof.Tests

open Sys2Proof.Machine

-- One theorem is checked at a time, so that the many small checks do not wait on one another in memory.
set_option Elab.async false

/-! ### Helpers -/

/-- `hdr(w,h,c,s)` of 95_test_vectors.md. -/
def hdr (w h : Word) (c s : Byte) : List Byte :=
  [0x71, 0x6F, 0x69, 0x66] ++ be32Bytes w ++ be32Bytes h ++ [c, s]

/-- `END` of 95_test_vectors.md. -/
def endMark : List Byte := [0, 0, 0, 0, 0, 0, 0, 1]

/-- The setting of 95_test_vectors.md 2.3: one pixel step of a 4-channel decode, `bytes` standing at the cursor. -/
def pixelState (px : Pixel) (run : BitVec 6) (bytes : List Byte) : State :=
  { State.reset with
    stream := hdr 2 1 4 0 ++ bytes
    px := px
    run := run
    p := 14
    width := 2
    height := 1
    channels := 4
    npx := 2
    phase := .pixels
    out := some { len := 8, mem := [] } }

/-- A state whose stream has been started. -/
def headerState (stream : List Byte) : State := { State.reset with stream := stream, phase := .header }

/-- The stream of vector S1, with other bytes after the chunk. -/
def redStream (tail : List Byte) : List Byte := hdr 1 1 3 0 ++ [0xFE, 0xFF, 0x00, 0x00] ++ tail

/-- Vector S1 after its one pixel, in TRAILER or DONE. -/
def redState (phase : Phase) (tail : List Byte) : State :=
  { State.reset with
    stream := redStream tail
    px := ⟨255, 0, 0, 255⟩
    p := 18
    pos := 1
    cache := cacheSet State.reset.cache 50 ⟨255, 0, 0, 255⟩
    width := 1
    height := 1
    channels := 3
    npx := 1
    phase := phase
    out := some { len := 3, mem := [(0, 255), (1, 0), (2, 0)] } }

/-- A decode that failed. -/
def errorState : State := { State.reset with phase := .error, err := some .tooShort }

/-- What a test looks at after a pixel step: pixel, run, cursor, the first four output bytes. -/
def seen : Result → Option (Pixel × BitVec 6 × Nat × List (Option Byte))
  | .next t => some (t.px, t.run, t.p.toNat, [0, 1, 2, 3].map t.outByte)
  | .fault _ => none
  | .refused _ => none

/-- The phase and error after a step. -/
def outcome : Result → Option (Phase × Option FormatError)
  | .next t => some t.status
  | .fault _ => none
  | .refused _ => none

/-- A cache slot after a step. -/
def slotAfter (i : Slot) : Result → Option Pixel
  | .next t => some (cacheGet t.cache i)
  | .fault _ => none
  | .refused _ => none

/-! ### Well-formedness: an ill-formed term for each check -/

/-- R89, R94: a RUN field is at most 61. -/
theorem test_run62_ill_formed : (Instr.run 62).wellFormed standardConfig = false := by decide

theorem test_run63_ill_formed : (Instr.run 63).wellFormed standardConfig = false := by decide

/-- R82: a TRAILER has `PAD_LEN` bytes. -/
theorem test_short_trailer_ill_formed : (Instr.trailer [0, 0, 0, 0, 0, 0, 1]).wellFormed standardConfig = false := by
  decide

theorem test_long_trailer_ill_formed : (Instr.trailer (0 :: endMark)).wellFormed standardConfig = false := by decide

/-! ### Decoding: words written out bit by bit from 30_encoding.md -/

/-- R84 and 95 2.2: `FE` is RGB and not RUN 62. -/
theorem test_decode_rgb :
    decodeChunk standardConfig [0b11111110, 0b11111110, 0b11111111, 0b00000001, 7] = .ok (.rgb 0xFE 0xFF 1, [7]) := by
  decide

/-- R85. -/
theorem test_decode_rgba :
    decodeChunk standardConfig [0b11111111, 0b00001010, 0b00010100, 0b00011110, 0b00101000] =
      .ok (.rgba 10 20 30 40, []) := by decide

/-- R86. -/
theorem test_decode_index : decodeChunk standardConfig [0b00111111] = .ok (.index 63, []) := by decide

/-- R87: fields 1, 2, 2 of `5A`. -/
theorem test_decode_diff : decodeChunk standardConfig [0b01011010] = .ok (.diff 1 2 2, []) := by decide

/-- R88: `AA 5C`. -/
theorem test_decode_luma : decodeChunk standardConfig [0b10101010, 0b01011100] = .ok (.luma 42 5 12, []) := by decide

/-- R89. -/
theorem test_decode_run : decodeChunk standardConfig [0b11111101] = .ok (.run 61, []) := by decide

/-- R81: the example of 40_header.md R111. -/
theorem test_decode_header :
    decodeHeader [0x71, 0x6F, 0x69, 0x66, 0, 0, 0, 1, 0, 0, 0, 2, 3, 0xAB, 9] =
      .ok (.header 0x716F6966 1 2 3 0xAB, [9]) := by decide

/-- R82. -/
theorem test_decode_trailer : decodeTrailer standardConfig (endMark ++ [5]) = .ok (.trailer endMark, [5]) := by decide

/-- R95: a chunk cut short is refused by name. -/
theorem test_decode_cut_short : decodeChunk standardConfig [0xFF, 1, 2, 3] = .error .chunkCutShort := by decide

/-- R100: a line of the assembler, in its bytes (`LUMA 10, -3, 4` of P1). -/
theorem test_assemble_luma :
    (assemble standardConfig (.luma 10 (-3) 4)).map (encode standardConfig) = some [0xAA, 0x5C] := by decide

/-- R100: the directive `.header 4, 2, 4, 1` in its bytes (95_test_vectors.md P1). -/
theorem test_assemble_header :
    (assemble standardConfig (.header 4 2 4 1)).map (encode standardConfig) =
      some [0x71, 0x6F, 0x69, 0x66, 0x00, 0x00, 0x00, 0x04, 0x00, 0x00, 0x00, 0x02, 0x04, 0x01] := by decide

/-- The words of spec/opcode_table.json: the second byte of a chunk is bits 15 to 8. -/
theorem test_table_word : decodeTableWord 16 0x5CAA = some (.luma 42 5 12) := by decide

theorem test_table_word_runs :
    outcome (step (State.reset.withFetchWord 8 0xC1)) = some (.trailer, none) := by decide

/-! ### RGB and RGBA -/

/-- LIT-3: alpha is kept. -/
theorem test_rgb_keeps_alpha :
    seen (step (pixelState ⟨9, 9, 9, 7⟩ 0 [0xFE, 1, 2, 3])) =
      some (⟨1, 2, 3, 7⟩, 0, 18, [some 1, some 2, some 3, some 7]) := by decide

/-- TR-2: the fetch of the third literal byte fails. -/
theorem test_rgb_truncated :
    outcome (step (pixelState ⟨9, 9, 9, 7⟩ 0 [0xFE, 1, 2])) = some (.error, some .truncated) := by decide

/-- LIT-4: tag-valued bytes are data. -/
theorem test_rgba_data :
    seen (step (pixelState ⟨9, 9, 9, 7⟩ 0 [0xFF, 0xFE, 0xFF, 0x00, 0x01])) =
      some (⟨254, 255, 0, 1⟩, 0, 19, [some 254, some 255, some 0, some 1]) := by decide

/-- R152's example: the pixel (10,20,30,40) is written to slot 12. -/
theorem test_rgba_slot :
    slotAfter 12 (step (pixelState ⟨0, 0, 0, 255⟩ 0 [0xFF, 10, 20, 30, 40])) = some ⟨10, 20, 30, 40⟩ := by decide

/-! ### INDEX -/

/-- IDX-3: the slot's pixel, alpha too. -/
theorem test_index_loads_alpha :
    seen (exec (.index 0)
      { pixelState ⟨5, 6, 7, 8⟩ 0 [0x00] with cache := cacheSet State.reset.cache 0 ⟨128, 128, 128, 128⟩ }) =
      some (⟨128, 128, 128, 128⟩, 0, 15, [some 128, some 128, some 128, some 128]) := by decide

/-- IDX-4: INDEX of a slot never written evicts slot 0. -/
theorem test_index_evicts :
    slotAfter 0 (exec (.index 5)
      { pixelState ⟨5, 6, 7, 8⟩ 0 [0x05] with cache := cacheSet State.reset.cache 0 ⟨128, 128, 128, 128⟩ }) =
      some ⟨0, 0, 0, 0⟩ := by decide

/-! ### DIFF and LUMA -/

/-- D-5: the channels are independent. -/
theorem test_diff_channels :
    seen (step (pixelState ⟨0, 255, 128, 9⟩ 0 [0x4E])) =
      some (⟨254, 0, 128, 9⟩, 0, 15, [some 254, some 0, some 128, some 9]) := by decide

/-- D-6. -/
theorem test_diff_wraps :
    seen (step (pixelState ⟨254, 1, 0, 0⟩ 0 [0x73])) =
      some (⟨255, 255, 1, 0⟩, 0, 15, [some 255, some 255, some 1, some 0]) := by decide

/-- L-2: the red and blue deltas are added to the green delta, not to the new green value. -/
theorem test_luma_green_delta :
    seen (step (pixelState ⟨100, 100, 100, 50⟩ 0 [0xAA, 0x5C])) =
      some (⟨107, 110, 114, 50⟩, 0, 16, [some 107, some 110, some 114, some 50]) := by decide

/-- L-8: a second byte equal to a tag is data. -/
theorem test_luma_second_byte :
    seen (step (pixelState ⟨0, 0, 0, 255⟩ 0 [0xA0, 0xFE])) =
      some (⟨7, 0, 6, 255⟩, 0, 16, [some 7, some 0, some 6, some 255]) := by decide

/-! ### RUN and the carry-over -/

/-- RUN-2. -/
theorem test_run_loads :
    seen (step (pixelState ⟨5, 6, 7, 8⟩ 0 [0xFD])) =
      some (⟨5, 6, 7, 8⟩, 61, 15, [some 5, some 6, some 7, some 8]) := by decide

/-- RUN-4: a carry-over at the end of the stream raises nothing. -/
theorem test_carry_over_at_end :
    seen (step (pixelState ⟨5, 6, 7, 8⟩ 1 [])) =
      some (⟨5, 6, 7, 8⟩, 0, 14, [some 5, some 6, some 7, some 8]) := by decide

/-! ### HEADER and TRAILER -/

/-- H-OK3: the largest height for width 20000 passes. -/
theorem test_header_boundary_passes :
    outcome (step (headerState (hdr 20000 19999 3 0 ++ [0xFE, 1, 2, 3] ++ endMark))) = some (.pixels, none) := by decide

/-- H-E7: width is tested before height and channels. -/
theorem test_header_priority :
    outcome (step (headerState (hdr 0 0 7 0 ++ [0xFE, 1, 2, 3] ++ endMark))) = some (.error, some .invalidWidth) := by
  decide

/-- T-OK. -/
theorem test_trailer_ok : outcome (step (redState .trailer endMark)) = some (.done, none) := by decide

/-- T-E4: a byte after a correct sentinel. -/
theorem test_trailer_strict :
    outcome (step (redState .trailer (endMark ++ [0]))) = some (.error, some .badPadding) := by decide

/-! ### The host -/

/-- R214, S1: the result the host reads at DONE. -/
theorem test_answer :
    (redState .done endMark).answer = some (.ok ⟨1, 1, 3, 0, [0xFF, 0x00, 0x00]⟩) := by decide

/-- R240: nothing is enabled after reset. -/
theorem test_idle_halts : step State.reset = .fault .noStepEnabled := by rfl

/-- S3 through the whole-decode function. -/
theorem test_whole_decode :
    wholeDecode standardConfig
      (hdr 4 1 4 0 ++ [0xFF, 10, 20, 30, 40, 0xFE, 200, 100, 50, 0x5A, 0x0C] ++ endMark) =
      .ok ⟨4, 1, 4, 0, [10, 20, 30, 40, 200, 100, 50, 40, 199, 100, 50, 40, 10, 20, 30, 40]⟩ := by decide

/-! ### The states of the witnesses meet the invariant -/

theorem standardConfig_wf : standardConfig.Wf :=
  ⟨rfl, rfl, rfl, by decide, by decide, by decide, by decide, by decide, rfl, rfl, by decide⟩

/-- A pixel state can produce a pixel. -/
theorem pixelState_can (px : Pixel) (run : BitVec 6) (bytes : List Byte) (h : bytes.length < 2 ^ 20) :
    (pixelState px run bytes).CanProduce where
  phase := rfl
  len := by simp [State.len, pixelState, hdr, be32Bytes]; omega
  pos := show (0 : Word).toNat < (2 : Word).toNat by decide
  room := ⟨_, rfl, show (0 : Word).toNat * stride 4 + stride 4 ≤ 8 by decide⟩

/-- A pixel state meets the invariant. -/
theorem pixelState_inv (px : Pixel) (run : BitVec 6) (bytes : List Byte) (hr : run.toNat ≤ 61)
    (h : bytes.length < 2 ^ 20) : (pixelState px run bytes).Inv where
  cfg := standardConfig_wf
  len := (pixelState_can px run bytes h).len
  err := by simp [pixelState, State.reset]
  run := hr
  start := by simp [pixelState]
  noOut := by simp [pixelState]
  outWf := by rintro b ⟨⟩; exact ⟨by decide, by decide⟩
  latched _ :=
    { width := show 1 ≤ (2 : Word).toNat by decide
      height := show 1 ≤ (1 : Word).toNat ∧ (1 : Word).toNat < 400000000 / (2 : Word).toNat by decide
      channels := .inr rfl
      npx := show (2 : Word).toNat = (2 : Word).toNat * (1 : Word).toNat by decide
      npxBounds := show 1 ≤ (2 : Word).toNat ∧ (2 : Word).toNat < 400000000 by decide
      cursor := ⟨show 14 ≤ (14 : Word).toNat by decide, by simp [State.len, pixelState, hdr, be32Bytes]⟩
      slots := show ∀ i, cacheGet State.reset.cache i = cacheSeed standardConfig 4 ∨
        hash standardConfig (cacheGet State.reset.cache i) = i by decide
      out := ⟨_, rfl, rfl, by simp [Memory.read, pixelState, State.reset]⟩ }
  before _ := show (0 : Word).toNat < (2 : Word).toNat by decide
  after := by simp [pixelState]

/-- A started state meets the invariant. -/
theorem headerState_inv (stream : List Byte) (h : stream.length < 2 ^ 32) : (headerState stream).Inv where
  cfg := standardConfig_wf
  len := h
  err := by simp [headerState, State.reset]
  run := show State.reset.run.toNat ≤ 61 by decide
  start _ := rfl
  noOut _ := rfl
  outWf := by simp [headerState, State.reset]
  latched := by simp [headerState]
  before := by simp [headerState]
  after := by simp [headerState]

/-- A red state meets the invariant, in TRAILER and in DONE. -/
theorem redState_inv (phase : Phase) (tail : List Byte) (hp : phase = .trailer ∨ phase = .done)
    (h : tail.length < 2 ^ 20) : (redState phase tail).Inv where
  cfg := standardConfig_wf
  len := by simp [State.len, redState, redStream, hdr, be32Bytes]; omega
  err := by rcases hp with rfl | rfl <;> simp [redState, State.reset]
  run := show State.reset.run.toNat ≤ 61 by decide
  start := by rcases hp with rfl | rfl <;> simp [redState]
  noOut := by rcases hp with rfl | rfl <;> simp [redState]
  outWf := by rintro b ⟨⟩; exact ⟨by decide, by decide⟩
  latched _ :=
    { width := show 1 ≤ (1 : Word).toNat by decide
      height := by show 1 ≤ (1 : Word).toNat ∧ (1 : Word).toNat < 400000000 / (1 : Word).toNat; decide
      channels := .inl rfl
      npx := by show (1 : Word).toNat = (1 : Word).toNat * (1 : Word).toNat; decide
      npxBounds := by show 1 ≤ (1 : Word).toNat ∧ (1 : Word).toNat < 400000000; decide
      cursor := ⟨by show 14 ≤ (18 : Word).toNat; decide, by simp [State.len, redState, redStream, hdr, be32Bytes]⟩
      slots := by
        show ∀ i, cacheGet (cacheSet State.reset.cache 50 ⟨255, 0, 0, 255⟩) i = cacheSeed standardConfig 3 ∨
          hash standardConfig (cacheGet (cacheSet State.reset.cache 50 ⟨255, 0, 0, 255⟩) i) = i
        decide
      out := ⟨_, rfl, rfl, fun a => by
        show _ ↔ a < 3
        match a with
        | 0 => simp [Memory.read]
        | 1 => simp [Memory.read]
        | 2 => simp [Memory.read]
        | a + 3 => simp [Memory.read]⟩ }
  before := by rcases hp with rfl | rfl <;> simp [redState]
  after _ := rfl

/-- The failed state meets the invariant, with or without a command. -/
theorem errorState_inv (cmd : Option HostCommand) : State.Inv { errorState with cmd := cmd } where
  cfg := standardConfig_wf
  len := show 0 < 2 ^ 32 by decide
  err := by simp [errorState]
  run := show State.reset.run.toNat ≤ 61 by decide
  start := by simp [errorState]
  noOut := by simp [errorState]
  outWf := by simp [errorState, State.reset]
  latched := by simp [errorState]
  before := by simp [errorState]
  after := by simp [errorState]

/-! ### Witnesses: for each statement with hypotheses, states and operands that meet them -/

/-- Two small bounds the witnesses use. -/
theorem can (px : Pixel) (run : BitVec 6) (bytes : List Byte) (h : bytes.length ≤ 8 := by decide) :
    (pixelState px run bytes).CanProduce := pixelState_can px run bytes (by omega)

theorem inv (px : Pixel) (run : BitVec 6) (bytes : List Byte) (hr : run.toNat ≤ 61 := by decide)
    (h : bytes.length ≤ 8 := by decide) : (pixelState px run bytes).Inv := pixelState_inv px run bytes hr (by omega)

/-- OnlyMissingBytesStopAChunk: each clause at its boundary. -/
theorem witness_missing_bytes :
    chunkLength (chunkKind standardConfig 0xFE) ≤ [(1 : Byte), 2, 3].length + 1 ∧
    [(1 : Byte), 2].length + 1 < chunkLength (chunkKind standardConfig 0xFE) := by decide

/-- DecodeOfEncode, at the largest RUN field. -/
theorem witness_decode_of_encode : standardConfig.Wf ∧ (Instr.run 61).wellFormed standardConfig = true :=
  ⟨standardConfig_wf, by decide⟩

/-- EncodeOfDecode. -/
theorem witness_encode_of_decode :
    standardConfig.Wf ∧ decode standardConfig .chunk [0xFD, 0x00] = .ok (.run 61, [0x00]) :=
  ⟨standardConfig_wf, by decide⟩

/-- OpcodeMapByFirstByte: the last byte of INDEX, and the first and last of LUMA and RUN. -/
theorem witness_opcode_map :
    (0x3F : Byte).toNat ≤ 0x3F ∧ (0x80 ≤ (0x80 : Byte).toNat ∧ (0x80 : Byte).toNat ≤ 0xBF) ∧
    (0x80 ≤ (0xBF : Byte).toNat ∧ (0xBF : Byte).toNat ≤ 0xBF) ∧
    (0xC0 ≤ (0xC0 : Byte).toNat ∧ (0xC0 : Byte).toNat ≤ 0xFD) ∧
    (0xC0 ≤ (0xFD : Byte).toNat ∧ (0xFD : Byte).toNat ≤ 0xFD) := by decide

/-- ChannelArithmeticWraps: red 0, and just enough bytes. -/
theorem witness_wraps :
    (∃ s : State, s.cfg = standardConfig ∧ s.CanProduce ∧ s.p.toNat + 1 = s.len ∧ s.px.r = 0) ∧
    (∃ s : State, s.cfg = standardConfig ∧ s.CanProduce ∧ s.p.toNat + 2 = s.len ∧ s.px.r = 0) :=
  ⟨⟨pixelState ⟨0, 0, 0, 255⟩ 0 [0x5A], rfl, can .., by decide, rfl⟩,
    ⟨pixelState ⟨0, 0, 0, 255⟩ 0 [0x9F, 0x88], rfl, can .., by decide, rfl⟩⟩

/-- HashIsWeightedSumMod64: parameters that meet R8, and the smallest width. -/
theorem witness_hash_width : standardConfig.Wf ∧ ∃ n : Nat, 6 ≤ n := ⟨standardConfig_wf, 6, by decide⟩

/-- The six chunks: just enough bytes, and one byte too few, for each length. -/
theorem witness_chunk_lengths :
    (∃ s : State, s.CanProduce ∧ s.p.toNat + 1 = s.len) ∧ (∃ s : State, s.CanProduce ∧ s.p.toNat + 2 = s.len) ∧
    (∃ s : State, s.CanProduce ∧ s.p.toNat + 4 = s.len) ∧ (∃ s : State, s.CanProduce ∧ s.p.toNat + 5 = s.len) ∧
    (∃ s : State, s.phase = .pixels ∧ s.len + 1 = s.p.toNat + 1) ∧
    (∃ s : State, s.phase = .pixels ∧ s.len + 1 = s.p.toNat + 2) ∧
    (∃ s : State, s.phase = .pixels ∧ s.len + 1 = s.p.toNat + 4) ∧
    (∃ s : State, s.phase = .pixels ∧ s.len + 1 = s.p.toNat + 5) :=
  ⟨⟨pixelState ⟨1, 2, 3, 4⟩ 0 [0x00], can .., by decide⟩, ⟨pixelState ⟨1, 2, 3, 4⟩ 0 [0x80, 0], can .., by decide⟩,
    ⟨pixelState ⟨1, 2, 3, 4⟩ 0 [0xFE, 0, 0, 0], can .., by decide⟩,
    ⟨pixelState ⟨1, 2, 3, 4⟩ 0 [0xFF, 0, 0, 0, 0], can .., by decide⟩,
    ⟨pixelState ⟨1, 2, 3, 4⟩ 0 [], rfl, by decide⟩, ⟨pixelState ⟨1, 2, 3, 4⟩ 0 [0x80], rfl, by decide⟩,
    ⟨pixelState ⟨1, 2, 3, 4⟩ 0 [0xFE, 0, 0], rfl, by decide⟩,
    ⟨pixelState ⟨1, 2, 3, 4⟩ 0 [0xFF, 0, 0, 0], rfl, by decide⟩⟩

/-- The first bytes of the decoding clauses of RGBA, INDEX, DIFF, LUMA and RUN. -/
theorem witness_first_bytes :
    standardConfig.Wf ∧ (0x3F : Byte) &&& 0xC0 = standardConfig.tagIndex ∧ (0x7F : Byte) &&& 0xC0 = standardConfig.tagDiff ∧
    (0xBF : Byte) &&& 0xC0 = standardConfig.tagLuma ∧ (0xFD : Byte) &&& 0xC0 = standardConfig.tagRun ∧
    (0xFD : Byte) ≠ standardConfig.tagRgb ∧ (0xFD : Byte) ≠ standardConfig.tagRgba :=
  ⟨standardConfig_wf, by decide, by decide, by decide, by decide, by decide, by decide⟩

/-- CarryOverRepeatsThePixel, with the last repeat and no byte left. -/
theorem witness_carry_over : ∃ s : State, s.cmd = none ∧ s.CanProduce ∧ s.run ≠ 0 :=
  ⟨pixelState ⟨5, 6, 7, 8⟩ 1 [], rfl, can .., by decide⟩

/-- RunStandsForRlPlusOnePixels: the first pixel and the last of `RUN 1`, which ends the image. -/
theorem witness_run_stands :
    ∃ (s : State) (rl : BitVec 6) (rest : List Byte), s.Inv ∧ s.cmd = none ∧ s.phase = .pixels ∧ s.run = 0 ∧
      decodeChunk s.cfg s.fromCursor = .ok (.run rl, rest) ∧
      (1 ≤ 1 ∧ 1 ≤ rl.toNat + 1 ∧ s.pos.toNat + 1 ≤ s.npx.toNat) ∧
      (1 ≤ 2 ∧ 2 ≤ rl.toNat + 1 ∧ s.pos.toNat + 2 ≤ s.npx.toNat) :=
  ⟨pixelState ⟨5, 6, 7, 8⟩ 0 [0xC1], 1, [], inv .., rfl, rfl, rfl, by decide, by decide, by decide⟩

/-- RunMayStandAnywhere: `RUN 61` as the first chunk of a 3- and of a 4-channel image, past the last pixel, and after a
DIFF. -/
theorem witness_run_anywhere :
    (∀ ch ∈ [(3 : Byte), 4], ∃ (s t : State), s.cfg = standardConfig ∧ s.len < 2 ^ 32 ∧
      exec (.header 0x716F6966 1 1 ch 0) s = .next t ∧ t.phase = .pixels) ∧
    (∃ (s : State) (rest : List Byte), s.Inv ∧ s.cmd = none ∧ s.phase = .pixels ∧ s.run = 0 ∧
      decodeChunk s.cfg s.fromCursor = .ok (.run 61, rest) ∧ s.npx.toNat - s.pos.toNat < (61 : BitVec 6).toNat + 1) ∧
    (∃ s t : State, exec (.diff 1 2 2) s = .next t ∧ t.CanProduce ∧ t.p.toNat + 1 ≤ t.len) := by
  refine ⟨?_, ⟨pixelState ⟨5, 6, 7, 8⟩ 0 [0xFD], [], inv .., rfl, rfl, rfl, by decide, by decide⟩, ?_⟩
  · have : ∀ ch ∈ [(3 : Byte), 4],
        outcome (exec (.header 0x716F6966 1 1 ch 0) (headerState (hdr 1 1 ch 0 ++ [0xFD] ++ endMark))) =
          some (.pixels, none) := by decide
    intro ch hch
    have h := this ch hch
    cases he : exec (.header 0x716F6966 1 1 ch 0) (headerState (hdr 1 1 ch 0 ++ [0xFD] ++ endMark)) with
    | next t =>
      rw [he] at h
      exact ⟨_, t, rfl, by simp [State.len, headerState, hdr, endMark, be32Bytes], he, by
        simpa [outcome, State.status] using congrArg (Option.map Prod.fst) h⟩
    | fault r => rw [he] at h; cases h
    | refused r => rw [he] at h; cases h
  · exact ⟨pixelState ⟨0, 0, 0, 255⟩ 0 [0x5A, 0xFD], _, rfl,
      ⟨rfl, show 16 < 2 ^ 32 by decide, show (1 : Word).toNat < (2 : Word).toNat by decide, _, rfl,
        show (1 : Word).toNat * stride 4 + stride 4 ≤ 8 by decide⟩, by decide⟩

/-- EveryPixelStepCommitsItsPixel and the first clause of OutputBytesWrittenOnceInOrder. -/
theorem witness_pixel_step :
    ∃ s t : State, s.Inv ∧ s.cmd = none ∧ s.phase = .pixels ∧ step s = .next t ∧ t.phase ≠ .error :=
  ⟨pixelState ⟨9, 9, 9, 7⟩ 0 [0xFE, 1, 2, 3], _, inv .., rfl, rfl, rfl, by decide⟩

/-- ChunkMeaningIgnoresModeAndPosition: a 4-channel and a 3-channel image at different positions. -/
theorem witness_mode_independent :
    ∃ (s s' t t' : State) (idx : Slot), s.channels ≠ s'.channels ∧ s.pos ≠ s'.pos ∧ s.cfg = s'.cfg ∧ s.px = s'.px ∧
      s.cache = s'.cache ∧ exec (.index idx) s = .next t ∧ exec (.index idx) s' = .next t' ∧ t.phase ≠ .error ∧
      t'.phase ≠ .error :=
  ⟨pixelState ⟨5, 6, 7, 8⟩ 0 [0x05],
    { pixelState ⟨5, 6, 7, 8⟩ 0 [0x05] with channels := 3, pos := 1, out := some { len := 6, mem := [] } }, _, _, 5,
    by decide, by decide, rfl, rfl, rfl, rfl, rfl, by decide, by decide⟩

/-- AlphaChangesOnlyByRgbaAndIndex. -/
theorem witness_alpha_changes :
    ∃ s t : State, s.cmd = none ∧ s.phase = .pixels ∧ step s = .next t ∧ t.px.a ≠ s.px.a :=
  ⟨pixelState ⟨9, 9, 9, 7⟩ 0 [0xFF, 0xFE, 0xFF, 0x00, 0x01], _, rfl, rfl, rfl, by decide⟩

/-- UnwrittenSlotGivesTheSeed: INDEX 5 as first chunk, and after one pixel of another slot. -/
theorem witness_unwritten_slot :
    (∃ s t : State, s.cmd = none ∧ exec (.header 0x716F6966 2 1 3 0) s = .next t ∧ t.phase = .pixels ∧
      steps 0 t = .next t ∧ (∀ q ∈ pixelsProduced 0 t, hash s.cfg q ≠ 5) ∧ t.CanProduce ∧ t.p.toNat + 1 ≤ t.len) ∧
    (∃ s t u : State, s.cmd = none ∧ exec (.header 0x716F6966 2 1 3 0) s = .next t ∧ t.phase = .pixels ∧
      steps 1 t = .next u ∧ (∀ q ∈ pixelsProduced 1 t, hash s.cfg q ≠ 5) ∧ u.CanProduce ∧ u.p.toNat + 1 ≤ u.len) :=
  ⟨⟨headerState (hdr 2 1 3 0 ++ [0xFE, 255, 0, 0, 0x05] ++ endMark), _, rfl, rfl, rfl, rfl, by decide,
      ⟨rfl, by decide, by decide, _, rfl, by decide⟩, by decide⟩,
    ⟨headerState (hdr 2 1 3 0 ++ [0xFE, 255, 0, 0, 0x05] ++ endMark), _, _, rfl, rfl, rfl, rfl, by decide,
      ⟨rfl, by decide, by decide, _, rfl, by decide⟩, by decide⟩⟩

/-- SlotHoldsLastPixelOfItsHash, over two steps. -/
theorem witness_slot_holds :
    ∃ s t : State, s.cmd = none ∧ s.phase = .pixels ∧ steps 2 s = .next t ∧ (pixelsProduced 2 s).length = 2 :=
  ⟨pixelState ⟨9, 9, 9, 7⟩ 0 [0xFE, 1, 2, 3, 0x5A], _, rfl, rfl, rfl, by decide⟩

/-- IndexReproducesAnEarlierPixel, as in S3 with one pixel between. -/
theorem witness_index_reproduces :
    ∃ s s₁ t : State, s.cmd = none ∧ s.phase = .pixels ∧ step s = .next s₁ ∧ s₁.phase ≠ .error ∧ steps 1 s₁ = .next t ∧
      (∀ q ∈ pixelsProduced 1 s₁, hash s.cfg q ≠ hash s.cfg s₁.px) ∧ t.CanProduce ∧ t.p.toNat + 1 ≤ t.len :=
  ⟨{ pixelState ⟨0, 0, 0, 255⟩ 0 [0xFF, 10, 20, 30, 40, 0x5A, 0x0C] with npx := 3, out := some { len := 12, mem := [] } },
    _, _, rfl, rfl, rfl, by decide, rfl, by decide, ⟨rfl, by decide, by decide, _, rfl, by decide⟩, by decide⟩

/-- PassingHeaderStartsThePixels: the largest height of width 20000, in both channel modes and with any colour space. -/
theorem witness_passing_header :
    ∀ ch ∈ [(3 : Byte), 4], ∃ s : State, s.cfg.Wf ∧ s.phase = .header ∧
      HeaderPasses s.cfg s.len 0x716F6966 20000 19999 ch := by
  intro ch hch
  refine ⟨headerState (redStream endMark), standardConfig_wf, rfl, ?_, ?_, ?_, ?_, ?_⟩
  · decide
  · rfl
  · decide
  · decide
  · simpa using hch

/-- HeaderReportsItsFirstFailingCheck: each clause at a boundary (H-E2, H-E5, H-E6, H-E10, H-E15). -/
theorem witness_failing_checks :
    let s := headerState (redStream endMark)
    ((headerState (hdr 1 1 3 0 ++ [0xFE, 1, 2, 3, 0, 0, 0])).phase = .header ∧
      ¬ s.cfg.hdrLen + s.cfg.padLen ≤ (headerState (hdr 1 1 3 0 ++ [0xFE, 1, 2, 3, 0, 0, 0])).len) ∧
    s.phase = .header ∧ s.cfg.hdrLen + s.cfg.padLen ≤ s.len ∧ (0x716F6967 : Word) ≠ s.cfg.magic ∧
    (0x716F6966 : Word) = s.cfg.magic ∧ (0 : Word).toNat = 0 ∧ (20000 : Word).toNat ≠ 0 ∧
    ¬ ((20000 : Word).toNat ≠ 0 ∧ (20000 : Word).toNat < s.cfg.pixelsMax / (20000 : Word).toNat) ∧
    ((19999 : Word).toNat ≠ 0 ∧ (19999 : Word).toNat < s.cfg.pixelsMax / (20000 : Word).toNat) ∧
    ((5 : Byte) ≠ 3 ∧ (5 : Byte) ≠ 4) := by decide

/-- HeightBoundTable: the bounds of its two quantified clauses. -/
theorem witness_height_bound : 1 ≤ (1 : Word).toNat ∧ 200000001 ≤ (200000001 : Word).toNat := by decide

/-- ShortStreamIsTooShort: 21 and 22 bytes. -/
theorem witness_short_stream :
    (∃ s : State, s.cmd = none ∧ s.phase = .header ∧ s.len < s.cfg.hdrLen + s.cfg.padLen ∧ s.len = 21) ∧
    (∃ s : State, s.cmd = none ∧ s.phase = .header ∧ s.cfg.Wf ∧ s.cfg.hdrLen + s.cfg.padLen ≤ s.len ∧
      s.err = none ∧ s.len = 22) :=
  ⟨⟨headerState (hdr 1 1 3 0 ++ [0xFE, 1, 2, 3, 0, 0, 0]), rfl, rfl, by decide, by decide⟩,
    ⟨headerState (hdr 1 1 4 0 ++ endMark), rfl, rfl, standardConfig_wf, by decide, rfl, by decide⟩⟩

/-- TrailerDecidesTheDecode and DecodeSucceedsExactlyAtTheSentinel: each clause, one byte around the boundary (T-OK, T-E1,
T-E4, T-E5), with both values of `STRICT_END`. -/
theorem witness_trailer :
    let loose := fun tail : List Byte =>
      { redState .trailer tail with cfg := { standardConfig with strictEnd := false } }
    let ok := redState .trailer endMark
    let wrong := redState .trailer [0, 0, 0, 0, 0, 0, 0, 0]
    let long := redState .trailer (endMark ++ [0])
    let cut := redState .trailer [0, 0, 0, 0, 0, 0, 0]
    (ok.cmd = none ∧ ok.phase = .trailer ∧ ok.p.toNat + ok.cfg.padLen = ok.len ∧ ok.fromCursor = ok.cfg.sentinel) ∧
    (wrong.cmd = none ∧ wrong.phase = .trailer ∧ wrong.p.toNat + wrong.cfg.padLen = wrong.len ∧
      wrong.fromCursor ≠ wrong.cfg.sentinel) ∧
    (long.phase = .trailer ∧ long.cfg.strictEnd = true ∧ long.p.toNat + long.cfg.padLen < long.len) ∧
    (cut.phase = .trailer ∧ cut.len < cut.p.toNat + cut.cfg.padLen) ∧
    ((loose (endMark ++ [0])).phase = .trailer ∧ (loose (endMark ++ [0])).cfg.strictEnd = false ∧
      18 + (loose (endMark ++ [0])).cfg.padLen < (loose (endMark ++ [0])).len ∧
      (loose (endMark ++ [0])).fromCursor.take (loose (endMark ++ [0])).cfg.padLen = standardConfig.sentinel) ∧
    ((loose (0xC0 :: endMark)).cfg.strictEnd = false ∧
      18 + (loose (0xC0 :: endMark)).cfg.padLen < (loose (0xC0 :: endMark)).len ∧
      (loose (0xC0 :: endMark)).fromCursor.take (loose (0xC0 :: endMark)).cfg.padLen ≠ standardConfig.sentinel) := by
  decide

/-- NoStreamOf22BytesDecodes: H-OK2. -/
theorem witness_22_bytes : (hdr 1 1 4 0 ++ endMark).length ≤ 22 := by decide

/-- ErrorCommitsNothingElse and EachStepRaisesOnlyItsErrors: one error of each kind of step. -/
theorem witness_errors :
    (∃ s t : State, s.err = none ∧ s.phase = .header ∧ step s = .next t ∧ t.err = some .invalidWidth ∧
      t.phase = .error) ∧
    (∃ s t : State, s.err = none ∧ s.phase = .pixels ∧ step s = .next t ∧ t.err = some .truncated ∧ t.phase = .error) ∧
    (∃ s t : State, s.err = none ∧ s.phase = .trailer ∧ step s = .next t ∧ t.err = some .badPadding ∧
      t.phase = .error) :=
  ⟨⟨headerState (hdr 0 0 7 0 ++ endMark), _, rfl, rfl, rfl, rfl, rfl⟩,
    ⟨pixelState ⟨0, 0, 0, 255⟩ 0 [0xFE, 1, 2], _, rfl, rfl, rfl, rfl, rfl⟩,
    ⟨redState .trailer (endMark ++ [0]), _, rfl, rfl, rfl, rfl, rfl⟩⟩

/-- EveryStreamIsAnswered, EveryDecodeEnds and StartDuringADecodeIsRefused: a decode in each of its phases. -/
theorem witness_decoding :
    (∃ s : State, s.Inv ∧ s.cmd = none ∧ s.Decoding ∧ s.phase = .header) ∧
    (∃ s : State, s.Inv ∧ s.cmd = none ∧ s.Decoding ∧ s.phase = .pixels) ∧
    (∃ s : State, s.Inv ∧ s.cmd = none ∧ s.Decoding ∧ s.phase = .trailer) :=
  ⟨⟨headerState [], headerState_inv _ (by decide), rfl, .inl rfl, rfl⟩,
    ⟨pixelState ⟨0, 0, 0, 255⟩ 0 [], inv .., rfl, .inr (.inl rfl), rfl⟩,
    ⟨redState .trailer endMark, redState_inv _ _ (.inl rfl) (by decide), rfl, .inr (.inr rfl), rfl⟩⟩

/-- StepRunsTheDecodedRecord: each clause. -/
theorem witness_step_runs :
    (∃ (s : State) (i : Instr) (rest : List Byte), s.cmd = none ∧ s.phase = .header ∧
      decode s.cfg .header s.stream = .ok (i, rest)) ∧
    (∃ (s : State) (e : DecodeError), s.cmd = none ∧ s.phase = .header ∧ decode s.cfg .header s.stream = .error e) ∧
    (∃ (s : State) (i : Instr) (rest : List Byte), s.cmd = none ∧ s.phase = .pixels ∧ s.run = 0 ∧
      decode s.cfg .chunk (s.stream.drop s.p.toNat) = .ok (i, rest)) ∧
    (∃ (s : State) (e : DecodeError), s.cmd = none ∧ s.phase = .pixels ∧ s.run = 0 ∧
      decode s.cfg .chunk (s.stream.drop s.p.toNat) = .error e) ∧
    (∃ s : State, s.cmd = none ∧ s.phase = .pixels ∧ s.run ≠ 0) ∧
    (∃ (s : State) (i : Instr) (rest : List Byte), s.cmd = none ∧ s.phase = .trailer ∧
      decode s.cfg .trailer (s.stream.drop s.p.toNat) = .ok (i, rest)) ∧
    (∃ (s : State) (e : DecodeError), s.cmd = none ∧ s.phase = .trailer ∧
      decode s.cfg .trailer (s.stream.drop s.p.toNat) = .error e) :=
  ⟨⟨headerState (redStream endMark), _, _, rfl, rfl, rfl⟩, ⟨headerState [], _, rfl, rfl, rfl⟩,
    ⟨pixelState ⟨0, 0, 0, 255⟩ 0 [0x5A], _, _, rfl, rfl, rfl, rfl⟩,
    ⟨pixelState ⟨0, 0, 0, 255⟩ 0 [0xFE], _, rfl, rfl, rfl, rfl⟩,
    ⟨pixelState ⟨0, 0, 0, 255⟩ 61 [], rfl, rfl, by decide⟩,
    ⟨redState .trailer endMark, _, _, rfl, rfl, rfl⟩, ⟨redState .trailer [0], _, rfl, rfl, rfl⟩⟩

/-- NoStepWhereNothingIsEnabled: a state on each side. -/
theorem witness_nothing_enabled :
    (State.reset.cmd = none ∧ ¬ State.reset.Decoding) ∧ ((headerState []).cmd = none ∧ (headerState []).Decoding) :=
  ⟨⟨rfl, by simp [State.Decoding, State.reset]⟩, rfl, .inl rfl⟩

/-- StartBindsTheStream and StepsComputeTheWholeDecode: each phase that admits a start. -/
theorem witness_start :
    State.reset.cfg.Wf ∧ State.reset.phase = .idle ∧ (redState .done endMark).phase = .done ∧
    errorState.phase = .error ∧ (redStream endMark).length < 2 ^ 32 :=
  ⟨standardConfig_wf, rfl, rfl, rfl, by decide⟩

/-- There is a stream of every length. -/
theorem stream_of_length (n : Nat) : ∃ stream : List Byte, n ≤ stream.length :=
  ⟨List.replicate n 0, by rw [List.length_replicate]⟩

/-- OverlongStartIsRefused: 2^32 bytes. -/
theorem witness_overlong : State.reset.phase = .idle ∧ ∃ stream : List Byte, 2 ^ 32 ≤ stream.length :=
  ⟨rfl, stream_of_length _⟩

/-- RecordsRunOnlyInTheirPhase: a record of each kind outside its phase. -/
theorem witness_wrong_phase :
    State.reset.phase ≠ .header ∧ State.reset.phase ≠ .pixels ∧ State.reset.phase ≠ .trailer ∧ State.reset.cmd = none := by
  decide

/-- ResetStartAndHeaderValues, PhasesFollowTheLifeCycle and NothingSurvivesAStart: a reset, a start, a header that passes
after it. -/
theorem witness_start_and_header :
    (∃ s t : State, step (s.present .hardReset) = .next t) ∧
    (∃ s t : State, step (s.present (.start (redStream endMark))) = .next t) ∧
    (∃ s t : State, s.cfg.Wf ∧ s.err = none ∧ exec (.header 0x716F6966 1 1 3 0) s = .next t ∧ t.phase ≠ .error) ∧
    (∃ s₁ s₂ t₁ t₂ : State, s₁ ≠ s₂ ∧ s₁.cfg = s₂.cfg ∧
      steps 2 (s₁.present (.start (redStream endMark))) = .next t₁ ∧
      steps 2 (s₂.present (.start (redStream endMark))) = .next t₂ ∧ t₁.phase = .pixels) :=
  ⟨⟨State.reset, _, rfl⟩, ⟨State.reset, _, rfl⟩,
    ⟨headerState (redStream endMark), _, standardConfig_wf, rfl, rfl, by decide⟩,
    ⟨State.reset, redState .done endMark, _, _, by decide, rfl, rfl, rfl, rfl⟩⟩

/-- StreamAndParametersAreFixed, OnlyHeaderWritesHeaderRegisters and ColourSpaceChangesNothing: a pixel step, and a header
step that fails; a header that passes is in witness_start_and_header. -/
theorem witness_header_registers :
    (∃ s t : State, s.cmd = none ∧ step s = .next t ∧ s.phase ≠ .header) ∧
    (∃ s t : State, s.cmd = none ∧ step s = .next t ∧ s.phase = .header ∧ t.phase = .error) :=
  ⟨⟨pixelState ⟨0, 0, 0, 255⟩ 0 [0x5A], _, rfl, rfl, by decide⟩, ⟨headerState [], _, rfl, rfl, rfl, rfl⟩⟩

/-- CursorMovesByTheRecord and EveryStepKeepsTheInvariant: a step of each kind. -/
theorem witness_cursor :
    (∃ (s t : State) (stream : List Byte), s.Inv ∧ s.cmd = some (.start stream) ∧ step s = .next t ∧
      t.phase ≠ .error) ∧
    (∃ s t : State, s.Inv ∧ s.cmd = none ∧ s.phase = .header ∧ step s = .next t ∧ t.phase ≠ .error) ∧
    (∃ s t : State, s.Inv ∧ s.cmd = none ∧ s.phase = .pixels ∧ s.run ≠ 0 ∧ step s = .next t ∧ t.phase ≠ .error) ∧
    (∃ s t : State, s.Inv ∧ s.cmd = none ∧ s.phase = .pixels ∧ s.run = 0 ∧ step s = .next t ∧ t.phase ≠ .error) ∧
    (∃ s t : State, s.Inv ∧ s.cmd = none ∧ s.phase = .trailer ∧ step s = .next t ∧ t.phase ≠ .error) :=
  ⟨⟨errorState.present (.start [1]), _, [1], errorState_inv _, rfl, rfl, by decide⟩,
    ⟨headerState (redStream endMark), _, headerState_inv _ (by decide), rfl, rfl, rfl, by decide⟩,
    ⟨pixelState ⟨5, 6, 7, 8⟩ 1 [], _, inv .., rfl, rfl, by decide, rfl, by decide⟩,
    ⟨pixelState ⟨5, 6, 7, 8⟩ 0 [0xFF, 1, 2, 3, 4], _, inv .., rfl, rfl, rfl, rfl, by decide⟩,
    ⟨redState .trailer endMark, _, redState_inv _ _ (.inl rfl) (by decide), rfl, rfl, rfl, by decide⟩⟩

/-- RunCounterStaysBelow62: a header that passes, and the largest counter. -/
theorem witness_run_bound :
    (∃ s t : State, exec (.header 0x716F6966 1 1 3 0) s = .next t ∧ t.phase = .pixels) ∧
    (∃ s t : State, s.cfg.Wf ∧ s.cmd ≠ some .hardReset ∧ s.run.toNat = 61 ∧ s.run.toNat ≤ 61 ∧ step s = .next t) :=
  ⟨⟨headerState (redStream endMark), _, rfl, rfl⟩,
    ⟨pixelState ⟨5, 6, 7, 8⟩ 61 [], _, standardConfig_wf, by decide, by decide, by decide, rfl⟩⟩

/-- OutputBytesWrittenOnceInOrder (its second clause) and ResultIsImageOrError: each phase. -/
theorem witness_result :
    (∃ s : State, s.Inv ∧ s.phase = .done) ∧ (∃ s : State, s.Inv ∧ s.phase = .error) ∧
    (∃ s : State, s.Inv ∧ s.phase ≠ .done ∧ s.phase ≠ .error) :=
  ⟨⟨redState .done endMark, redState_inv _ _ (.inr rfl) (by decide), rfl⟩, ⟨errorState, errorState_inv none, rfl⟩,
    ⟨headerState [], headerState_inv _ (by decide), by decide, by decide⟩⟩

end Sys2Proof.Tests
end

section
/-! When a meaning is refused, and why a step never asks for one that is (00_scope.md R12, log 11). -/

namespace Sys2Proof.Machine

/-- The phase whose step executes a record of the kind (40_header.md R111, 41_pixel_step.md R131, 46_trailer.md R201). -/
def enabledPhase : RecordKind → Phase
  | .header => .header
  | .chunk => .pixels
  | .trailer => .trailer

/-- A pixel's commit is never refused: what can stop it is the output write, by a fault. -/
theorem commitPixel_ne_refused (s : State) (q : Pixel) (run : BitVec 6) (n : Nat) (r : Refusal) :
    commitPixel s q run n ≠ .refused r := by
  unfold commitPixel
  split <;> simp

/-- A chunk's step is refused outside PIXELS only (41_pixel_step.md R131). -/
theorem chunkStep_refused_iff {s : State} {n : Nat} {q : Pixel} {run : BitVec 6} {r : Refusal} :
    chunkStep s n q run = .refused r ↔ s.phase ≠ .pixels ∧ r = .notEnabled := by
  by_cases hp : s.phase = .pixels
  · obtain hlen | hlen := Nat.lt_or_ge s.len (s.p.toNat + n)
    · simp [chunkStep_of_cut q run hp hlen, hp]
    · simp [chunkStep_of_bytes q run hp hlen, commitPixel_ne_refused, hp]
  · simp [chunkStep, hp, eq_comm]

/-- HEADER is refused outside HEADER only (40_header.md R111). -/
theorem execHeader_refused_iff {m w h : Word} {ch cs : Byte} {s : State} {r : Refusal} :
    execHeader m w h ch cs s = .refused r ↔ s.phase ≠ .header ∧ r = .notEnabled := by
  by_cases hp : s.phase = .header
  · cases he : headerError s.cfg s.len m w h ch with
    | none => simp [execHeader_pass cs hp he, hp]
    | some e => simp [execHeader_fail cs hp he, hp]
  · simp [execHeader, hp, eq_comm]

/-- TRAILER is refused outside TRAILER only (46_trailer.md R201). -/
theorem execTrailer_refused_iff {pad : List Byte} {s : State} {r : Refusal} :
    execTrailer pad s = .refused r ↔ s.phase ≠ .trailer ∧ r = .notEnabled := by
  by_cases hp : s.phase = .trailer
  · cases he : trailerError s.cfg s.p.toNat s.len pad with
    | none => simp [execTrailer_pass hp he, hp]
    | some e => simp [execTrailer_fail hp he, hp]
  · simp [execTrailer, hp, eq_comm]

/-- The one reason a meaning is refused is that its record is not the phase's (00_scope.md R12). -/
theorem exec_refused_iff {i : Instr} {s : State} {r : Refusal} :
    exec i s = .refused r ↔ s.phase ≠ enabledPhase i.recordKind ∧ r = .notEnabled := by
  cases i with
  | header => exact execHeader_refused_iff
  | trailer => exact execTrailer_refused_iff
  | _ => rw [exec_chunk rfl]; exact chunkStep_refused_iff

/-- The decoder answers a record of the kind it is asked for (30_encoding.md R80). -/
theorem recordKind_of_decode {c : Config} {k : RecordKind} {bytes rest : List Byte} {i : Instr}
    (h : decode c k bytes = .ok (i, rest)) : i.recordKind = k := by
  cases k with
  | header => obtain ⟨⟨_, _, _, _, _, rfl⟩, -, -⟩ := decodeHeader_ok h; rfl
  | chunk => exact (decodeChunk_ok h).1
  | trailer => obtain ⟨rfl, -, -⟩ := decodeTrailer_ok h; rfl

/-- What is fetched as a record was decoded as one. -/
theorem recordKind_of_ofDecoded {c : Config} {k : RecordKind} {bytes : List Byte} {i : Instr}
    (h : Fetched.ofDecoded (decode c k bytes) = .record i) : i.recordKind = k := by
  cases hd : decode c k bytes with
  | error e => simp [hd, Fetched.ofDecoded] at h
  | ok d =>
    obtain rfl : d.1 = i := by simpa [hd, Fetched.ofDecoded] using h
    exact recordKind_of_decode hd

/-- The step fetches by the phase: a fetched record is one the phase enables (00_scope.md R12). -/
theorem phase_of_fetch_record {s : State} {i : Instr} (h : fetch s = .record i) :
    s.phase = enabledPhase i.recordKind := by
  cases hp : s.phase with
  | header =>
    simp only [fetch, hp] at h
    rw [recordKind_of_ofDecoded h, enabledPhase]
  | pixels =>
    simp only [fetch, hp] at h
    split at h
    · rw [recordKind_of_ofDecoded h, enabledPhase]
    · cases h
  | trailer =>
    simp only [fetch, hp] at h
    rw [recordKind_of_ofDecoded h, enabledPhase]
  | _ => simp [fetch, hp] at h

/-- A step without a command is never refused: the refusals a step can answer are those of a command. -/
theorem step_ne_refused {s : State} (hc : s.cmd = none) (r : Refusal) : step s ≠ .refused r := by
  simp only [step, hc]
  cases hf : fetch s with
  | record i => exact fun h => (exec_refused_iff.1 h).1 (phase_of_fetch_record hf)
  | carryOver => exact commitPixel_ne_refused s s.px (s.run - 1) 0 r
  | failed e => simp
  | halted => simp

/-- Settles O43: a meaning is refused exactly outside its record's phase, and the step fetches by the phase. -/
theorem recordsRunOnlyInTheirPhase : Obligations.RecordsRunOnlyInTheirPhase :=
  ⟨fun _ _ h => exec_refused_iff.2 ⟨h, rfl⟩, fun _ hc => step_ne_refused hc .notEnabled⟩

end Sys2Proof.Machine
end

section
/-! What a step does, shaped for case analysis: a command taken (60_exceptions.md R230), or one of the four things a
decoder step can end in (00_scope.md R12). -/

namespace Sys2Proof.Machine

/-- A command that completes: a reset at any time, or a start where one is allowed, of a stream short enough. -/
theorem takeCommand_next {c : HostCommand} {s t : State} (h : takeCommand c s = .next t) :
    (c = .hardReset ∧ t = hardReset s) ∨
      ∃ stream, c = .start stream ∧ s.phase.canStart = true ∧ stream.length < 2 ^ 32 ∧ t = startStep stream s := by
  cases c with
  | hardReset => cases h; exact .inl ⟨rfl, rfl⟩
  | start stream =>
    right
    simp only [takeCommand] at h
    split at h
    · cases h
    · rename_i hphase
      split at h
      · cases h
      · rename_i hlen
        cases h
        exact ⟨stream, rfl, by simpa using hphase, by omega, rfl⟩

/-- A step with a command is the command taken. -/
theorem takeCommand_of_step {s t : State} {c : HostCommand} (hc : s.cmd = some c) (h : step s = .next t) :
    takeCommand c s = .next t := by
  simpa [step, hc] using h

/-- A presented reset that is taken gives the state after reset, over the parameters. -/
theorem step_present_hardReset {s t : State} (h : step (s.present .hardReset) = .next t) : t = hardReset s := by
  obtain ⟨-, ht⟩ | ⟨_, hc, -⟩ := takeCommand_next (takeCommand_of_step rfl h)
  · exact ht
  · cases hc

/-- A presented start that is taken found a phase that allows it and a stream short enough. -/
theorem step_present_start {s t : State} {stream : List Byte} (h : step (s.present (.start stream)) = .next t) :
    s.phase.canStart = true ∧ stream.length < 2 ^ 32 ∧ t = startStep stream s := by
  obtain ⟨hc, -⟩ | ⟨_, hc, hphase, hlen, ht⟩ := takeCommand_next (takeCommand_of_step rfl h)
  · cases hc
  · cases hc; exact ⟨hphase, hlen, ht⟩

/-- The phases that allow a start (60_exceptions.md R230). -/
theorem Phase.canStart_iff {ph : Phase} : ph.canStart = true ↔ ph = .idle ∨ ph = .done ∨ ph = .error := by
  cases ph <;> simp [Phase.canStart]

/-- The step that makes `pos = npx` ends the pixels (41_pixel_step.md R139). -/
@[simp] theorem phaseAfterPixel_eq_trailer_iff {pos npx : Word} :
    phaseAfterPixel pos npx = .trailer ↔ pos + 1 = npx := by
  simp [phaseAfterPixel]

@[simp] theorem phaseAfterPixel_eq_pixels_iff {pos npx : Word} :
    phaseAfterPixel pos npx = .pixels ↔ ¬ pos + 1 = npx := by
  simp [phaseAfterPixel]

/-- The phase after a pixel is PIXELS or TRAILER and no other. -/
theorem phaseAfterPixel_ne {ph : Phase} (hpixels : .pixels ≠ ph) (htrailer : .trailer ≠ ph) (pos npx : Word) :
    phaseAfterPixel pos npx ≠ ph := by
  unfold phaseAfterPixel
  split
  · exact htrailer
  · exact hpixels

@[simp] theorem phaseAfterPixel_ne_idle (pos npx : Word) : phaseAfterPixel pos npx ≠ .idle :=
  phaseAfterPixel_ne (by decide) (by decide) pos npx

@[simp] theorem phaseAfterPixel_ne_header (pos npx : Word) : phaseAfterPixel pos npx ≠ .header :=
  phaseAfterPixel_ne (by decide) (by decide) pos npx

@[simp] theorem phaseAfterPixel_ne_done (pos npx : Word) : phaseAfterPixel pos npx ≠ .done :=
  phaseAfterPixel_ne (by decide) (by decide) pos npx

@[simp] theorem phaseAfterPixel_ne_error (pos npx : Word) : phaseAfterPixel pos npx ≠ .error :=
  phaseAfterPixel_ne (by decide) (by decide) pos npx

/-- The output buffer after the write of the pixel `q` at the state's position (41_pixel_step.md R138). -/
def State.writePixel (s : State) (q : Pixel) (b : OutBuffer) : OutBuffer :=
  { b with mem := Memory.writeBytes b.mem (s.pos.toNat * stride s.channels) (pixelBytes s.channels q) }

/-- What a decoder step can make of `s`: an error taken, a header latched, a pixel committed, a trailer accepted. -/
inductive DecoderStep (s : State) : State → Prop where
  | raised (e : FormatError) (decoding : s.Decoding) : DecoderStep s (raise e s)
  | header {m w h : Word} {ch : Byte} (cs : Byte) (phase : s.phase = .header)
      (checks : headerError s.cfg s.len m w h ch = none) : DecoderStep s (latchHeader w h ch cs s)
  | pixel {q : Pixel} {run : BitVec 6} {n : Nat} {b : OutBuffer} (phase : s.phase = .pixels)
      (source : PixelSource s q run n) (buffer : s.out = some b)
      (room : s.pos.toNat * stride s.channels + stride s.channels ≤ b.len) :
      DecoderStep s (s.afterPixel q run n (s.writePixel q b))
  | trailer (phase : s.phase = .trailer) : DecoderStep s { s with phase := .done }

/-- A step without a command that gives a next state is a decoder step. -/
theorem decoderStep_of_step {s t : State} (hc : s.cmd = none) (h : step s = .next t) : DecoderStep s t := by
  obtain ⟨c, hc', -⟩ | ⟨-, hp, hstep⟩ | ⟨-, hp, hstep⟩ | ⟨-, hp, hstep⟩ := step_next h
  · simp [hc] at hc'
  · obtain ⟨-, rfl⟩ | ⟨m, w, ht, ch, cs, -, -, ⟨e, -, rfl⟩ | ⟨he, rfl⟩⟩ := hstep
    · exact .raised _ (.inl hp)
    · exact .raised _ (.inl hp)
    · exact .header cs hp he
  · obtain ⟨-, rfl⟩ | ⟨q, run, n, b, hsrc, hb, hfit, rfl⟩ := hstep
    · exact .raised _ (.inr (.inl hp))
    · exact .pixel hp hsrc hb hfit
  · obtain ⟨-, rfl⟩ | ⟨-, ⟨e, -, rfl⟩ | ⟨-, rfl⟩⟩ := hstep
    · exact .raised _ (.inr (.inr hp))
    · exact .raised _ (.inr (.inr hp))
    · exact .trailer hp

/-- The command port is the host's: a decoder step leaves it (log 3). -/
theorem DecoderStep.cmd_eq {s t : State} (h : DecoderStep s t) : t.cmd = s.cmd := by
  cases h <;> simp

/-- A decoder step writes no parameter (10_state.md R45). -/
theorem DecoderStep.cfg_eq {s t : State} (h : DecoderStep s t) : t.cfg = s.cfg := by
  cases h <;> simp

/-- A decoder step writes no byte of the stream (10_state.md R45). -/
theorem DecoderStep.stream_eq {s t : State} (h : DecoderStep s t) : t.stream = s.stream := by
  cases h <;> simp

/-- No decoder step goes back to HEADER (10_state.md R38). -/
theorem DecoderStep.phase_ne_header {s t : State} (h : DecoderStep s t) : t.phase ≠ .header := by
  cases h <;> simp

/-- The meaning of HEADER completes in phase HEADER only, as its first failing check's error or as the header latched. -/
theorem execHeader_next {m w h : Word} {ch cs : Byte} {s t : State} (hx : execHeader m w h ch cs s = .next t) :
    s.phase = .header ∧ ((∃ e, headerError s.cfg s.len m w h ch = some e ∧ t = raise e s) ∨
      (headerError s.cfg s.len m w h ch = none ∧ t = latchHeader w h ch cs s)) := by
  have hp : s.phase = .header := by
    by_contra hne
    simp [execHeader, hne] at hx
  refine ⟨hp, ?_⟩
  cases he : headerError s.cfg s.len m w h ch with
  | some e => rw [execHeader_fail cs hp he] at hx; cases hx; exact .inl ⟨e, rfl, rfl⟩
  | none => rw [execHeader_pass cs hp he] at hx; cases hx; exact .inr ⟨rfl, rfl⟩

end Sys2Proof.Machine
end

section
/-! What decodes is a record the encoding can hold (30_encoding.md R89, R90): the RUN field a chunk yields is at most
`RUN_FIELD_MAX`, since 62 and 63 in the RUN class are the literal tags. -/

namespace Sys2Proof

/-- The bits under 00_scope.md R8's mask are the byte's top two. -/
theorem toNat_and_mask (b : Byte) : (b &&& 0xC0).toNat = b.toNat / 64 * 64 := by
  decide +revert

/-- The low six bits of a byte. -/
theorem toNat_low_bits (b : Byte) : (b.extractLsb' 0 6).toNat = b.toNat % 64 := by
  simp [BitVec.extractLsb'_toNat]

/-- A tag in place under the mask is its top two bits. -/
theorem toNat_of_inPlace {t : Byte} (ht : t &&& 0xC0 = t) : t.toNat = t.toNat / 64 * 64 := by
  rw [← toNat_and_mask, ht]

/-- A byte carries a tag when its top two bits are the tag's. -/
theorem and_mask_eq_iff (b : Byte) {t : Byte} (ht : t &&& 0xC0 = t) : b &&& 0xC0 = t ↔ b.toNat / 64 = t.toNat / 64 := by
  have := toNat_of_inPlace ht
  rw [← BitVec.toNat_inj, toNat_and_mask]
  omega

/-- A byte is of kind RUN when no earlier test of 30_encoding.md R90 takes it. -/
theorem chunkKind_eq_run {c : Config} {b1 : Byte} (h : chunkKind c b1 = .run) :
    ¬ b1 = c.tagRgb ∧ ¬ b1 = c.tagRgba ∧ ¬ b1 &&& c.tagMask = c.tagIndex ∧ ¬ b1 &&& c.tagMask = c.tagDiff ∧
      ¬ b1 &&& c.tagMask = c.tagLuma := by
  unfold chunkKind at h
  split_ifs at h with hrgb hrgba hindex hdiff hluma
  exact ⟨hrgb, hrgba, hindex, hdiff, hluma⟩

/-- A byte that is none of the other kinds lies in the RUN class: the classes are the four values of the top two bits
(00_scope.md R8 b). -/
theorem runClass_of_chunkKind {c : Config} {b1 : Byte} (hc : c.Wf) (h : chunkKind c b1 = .run) :
    b1.toNat / 64 = c.tagRun.toNat / 64 := by
  obtain ⟨-, -, hindex, hdiff, hluma⟩ := chunkKind_eq_run h
  obtain ⟨hi, hd, hl, hr⟩ := hc.tagsInPlace
  rw [hc.mask] at hindex hdiff hluma hi hd hl hr
  rw [and_mask_eq_iff b1 hi] at hindex
  rw [and_mask_eq_iff b1 hd] at hdiff
  rw [and_mask_eq_iff b1 hl] at hluma
  have distinct := hc.tagsDistinct
  simp only [List.nodup_cons, List.mem_cons, List.not_mem_nil, or_false, not_or, ← BitVec.toNat_inj] at distinct
  have := toNat_of_inPlace hi
  have := toNat_of_inPlace hd
  have := toNat_of_inPlace hl
  have := toNat_of_inPlace hr
  omega

/-- The field of a byte of kind RUN is at most `RUN_FIELD_MAX` (30_encoding.md R89, R92): the class holds two larger
fields, 62 and 63, and they belong to the two literal tags. -/
theorem runField_le_of_chunkKind {c : Config} {b1 : Byte} (hc : c.Wf) (h : chunkKind c b1 = .run) :
    (slice b1 0 6).toNat ≤ c.runFieldMax := by
  obtain ⟨hrgb, hrgba, -⟩ := chunkKind_eq_run h
  obtain ⟨hrgbClass, hrgbaClass⟩ := hc.literalsInRun
  obtain ⟨hrgbField, hrgbaField⟩ := hc.literalsAboveRun
  have hclass := runClass_of_chunkKind hc h
  obtain ⟨-, -, -, hrun⟩ := hc.tagsInPlace
  rw [hc.mask] at hrgbClass hrgbaClass hrun
  rw [and_mask_eq_iff _ hrun] at hrgbClass hrgbaClass
  rw [toNat_low_bits, hc.runField] at hrgbField hrgbaField
  rw [slice, toNat_low_bits, hc.runField]
  rw [← BitVec.toNat_inj] at hrgb hrgba
  have hliterals := mt BitVec.eq_of_toNat_eq hc.literalsDistinct
  omega

/-- The fields of a chunk make a record the encoding can hold, its RUN field being one a RUN byte can have. -/
theorem wellFormed_of_decodeFields {c : Config} {b1 : Byte} {k : ChunkKind} {bytes : List Byte} {i : Instr}
    {rest : List Byte} (hrun : k = .run → (slice b1 0 6).toNat ≤ c.runFieldMax)
    (h : decodeFields b1 k bytes = .ok (i, rest)) : i.wellFormed c = true := by
  unfold decodeFields at h
  split at h <;> cases h <;> simp [Instr.wellFormed]
  exact hrun rfl

/-- What is decoded as a chunk is a record the encoding can hold (30_encoding.md R89). -/
theorem wellFormed_of_decodeChunk {c : Config} {bytes : List Byte} {i : Instr} {rest : List Byte} (hc : c.Wf)
    (h : decodeChunk c bytes = .ok (i, rest)) : i.wellFormed c = true := by
  cases bytes with
  | nil => cases h
  | cons b1 bytes => exact wellFormed_of_decodeFields (runField_le_of_chunkKind hc) h

end Sys2Proof
end

section
/-! The header's checks and the product they make safe (40_header.md R113 to R119). -/

namespace Sys2Proof.Machine

/-- A dimension is at least one exactly when it is not zero. -/
theorem one_le_toNat_iff {v : Word} : 1 ≤ v.toNat ↔ ¬ v = 0 := by
  rw [← BitVec.toNat_inj, Nat.one_le_iff_ne_zero]; rfl

/-- No check fails exactly when the header's contents pass (40_header.md R113 to R117). -/
theorem headerError_eq_none_iff {c : Config} {len : Nat} {m w h : Word} {ch : Byte} :
    headerError c len m w h ch = none ↔ HeaderPasses c len m w h ch := by
  constructor
  · intro hnone
    unfold headerError at hnone
    split_ifs at hnone with hlen hmagic hwidth hheight hchannels
    rw [not_or] at hheight
    exact ⟨by omega, not_not.1 hmagic, one_le_toNat_iff.2 hwidth, ⟨one_le_toNat_iff.2 hheight.1, by omega⟩,
      by_contra fun hne => hchannels (not_or.1 hne)⟩
  · rintro ⟨hlen, hmagic, hwidth, ⟨hheight, hbound⟩, hchannels⟩
    unfold headerError
    rw [if_neg (by omega), if_neg (not_not.2 hmagic), if_neg (one_le_toNat_iff.1 hwidth),
      if_neg (not_or.2 ⟨one_le_toNat_iff.1 hheight, by omega⟩), if_neg fun hne => not_or.2 hne hchannels]

/-- A header that passes asks for fewer than `PIXELS_MAX` pixels (40_header.md R119). -/
theorem HeaderPasses.area_lt {c : Config} {len : Nat} {m w h : Word} {ch : Byte} (hp : HeaderPasses c len m w h ch) :
    w.toNat * h.toNat < c.pixelsMax := by
  calc
    w.toNat * h.toNat = h.toNat * w.toNat := Nat.mul_comm ..
    _ < (h.toNat + 1) * w.toNat := Nat.mul_lt_mul_of_pos_right (Nat.lt_succ_self _) hp.widthOk
    _ ≤ c.pixelsMax := (Nat.le_div_iff_mul_le hp.widthOk).1 hp.heightOk.2

/-- The product of a header that passes does not wrap (40_header.md R119, 00_scope.md R8 e). -/
theorem HeaderPasses.toNat_area {c : Config} {len : Nat} {m w h : Word} {ch : Byte} (hp : HeaderPasses c len m w h ch)
    (hc : c.Wf) : (w * h).toNat = w.toNat * h.toNat := by
  have := hp.area_lt
  have := hc.pixelsMaxSmall
  rw [BitVec.toNat_mul, Nat.mod_eq_of_lt (by omega)]

end Sys2Proof.Machine
end

section
/-! The invariant of the machine, update by update (10_state.md R46). -/

namespace Sys2Proof.Machine

/-- A chunk decoded at the cursor is no longer than the stream that is left. -/
theorem PixelSource.length_le {s : State} {q : Pixel} {run : BitVec 6} {n : Nat} (h : PixelSource s q run n) :
    n ≤ s.len - s.p.toNat := by
  obtain ⟨-, i, rest, hd, rfl, -⟩ | ⟨-, rfl, -⟩ := h
  · simpa [State.fromCursor, State.len] using (decodeChunk_ok hd).2.1
  · omega

/-- A pixel step leaves a run the counter may hold (45_run.md R196): a RUN chunk's field, none, or one fewer. -/
theorem PixelSource.run_le {s : State} {q : Pixel} {run : BitVec 6} {n : Nat} (h : PixelSource s q run n)
    (hc : s.cfg.Wf) (hr : s.run.toNat ≤ s.cfg.runFieldMax) : run.toNat ≤ s.cfg.runFieldMax := by
  obtain ⟨-, i, rest, hd, -, heffect⟩ | ⟨hrun, -, -, rfl⟩ := h
  · have hwf := wellFormed_of_decodeChunk hc hd
    cases i with
    | run rl => cases heffect; simpa [Instr.wellFormed] using hwf
    | _ => cases heffect; exact Nat.zero_le _
  · rw [Ne, ← BitVec.toNat_inj] at hrun
    bv_omega

/-- Where the stream is one a start admits, the cursor moves over a pixel's bytes without wrapping. -/
theorem toNat_cursor_add {s : State} {n : Nat} (hlen : s.len < 2 ^ 32) (hp : s.p.toNat ≤ s.len)
    (hn : n ≤ s.len - s.p.toNat) : (s.p + BitVec.ofNat 32 n).toNat = s.p.toNat + n := by
  rw [BitVec.toNat_add, BitVec.toNat_ofNat]
  omega

/-- The position advances by one without wrapping where a pixel is left to produce. -/
theorem toNat_pos_succ {pos npx : Word} (h : pos.toNat < npx.toNat) : (pos + 1).toNat = pos.toNat + 1 := by
  bv_omega

/-- Outside PIXELS, TRAILER and DONE the invariant asks nothing of the registers the HEADER step initialises. -/
theorem inv_of_not_latched {s : State} (cfg : s.cfg.Wf) (len : s.len < 2 ^ 32) (err : s.err.isSome ↔ s.phase = .error)
    (run : s.run.toNat ≤ s.cfg.runFieldMax) (start : s.phase = .header → s.p = 0)
    (noOut : s.phase = .idle ∨ s.phase = .header → s.out = none) (outWf : ∀ b, s.out = some b → b.wf)
    (hp : ¬ (s.phase = .pixels ∨ s.phase = .trailer ∨ s.phase = .done)) : s.Inv where
  cfg := cfg
  len := len
  err := err
  run := run
  start := start
  noOut := noOut
  outWf := outWf
  latched h := absurd h hp
  before h := absurd (.inl h) hp
  after h := absurd (.inr h) hp

/-- A reset machine with well-formed parameters meets the invariant. -/
theorem inv_hardReset {s : State} (hc : s.cfg.Wf) : (hardReset s).Inv :=
  inv_of_not_latched hc (Nat.two_pow_pos 32) (by simp [State.reset]) (Nat.zero_le _) (fun _ => rfl) (fun _ => rfl)
    State.reset_out_wf (by simp [State.reset])

/-- A start keeps the invariant. -/
theorem inv_startStep {s : State} {stream : List Byte} (h : s.Inv) (hlen : stream.length < 2 ^ 32) :
    (startStep stream s).Inv :=
  inv_of_not_latched h.cfg hlen (by simp) h.run (fun _ => rfl) (fun _ => rfl) (by simp) (by simp)

/-- An error taken keeps the invariant (60_exceptions.md R213). -/
theorem inv_raise {s : State} (e : FormatError) (h : s.Inv) : (raise e s).Inv :=
  inv_of_not_latched (by simpa using h.cfg) (by simpa [State.len] using h.len) (by simp) (by simpa using h.run)
    (by simp) (by simp) (by simpa using h.outWf) (by simp)

/-- No error stands in `err` while a decode is in progress. -/
theorem State.Inv.err_eq_none {s : State} (h : s.Inv) (hp : s.phase ≠ .error) : s.err = none := by
  simpa using mt h.err.1 hp

/-- The header latched meets what the pixel steps rely on (10_state.md R44, R46). -/
theorem latched_latchHeader {s : State} {m w ht : Word} {ch : Byte} (cs : Byte) (hc : s.cfg.Wf)
    (hp : HeaderPasses s.cfg s.len m w ht ch) : (latchHeader w ht ch cs s).Latched where
  width := hp.widthOk
  height := hp.heightOk
  channels := hp.channelsOk
  npx := hp.toNat_area hc
  npxBounds := by
    have := hp.area_lt
    have := Nat.mul_pos hp.widthOk hp.heightOk.1
    simp only [latchHeader_npx, latchHeader_cfg, hp.toNat_area hc]
    omega
  cursor := by
    have hlen := hp.lengthOk
    rw [hc.headerLength] at hlen
    rw [latchHeader_p_eq _ _ _ _ hc]
    exact ⟨hc.headerLength.le, show 14 ≤ s.len by omega⟩
  slots := by simp
  out := ⟨_, rfl, rfl, by simp [Memory.read]⟩

/-- A HEADER step that passes keeps the invariant. -/
theorem inv_latchHeader {s : State} {m w ht : Word} {ch : Byte} (cs : Byte) (h : s.Inv) (hphase : s.phase = .header)
    (hp : HeaderPasses s.cfg s.len m w ht ch) : (latchHeader w ht ch cs s).Inv where
  cfg := h.cfg
  len := h.len
  err := by simp [h.err_eq_none, hphase]
  run := by simp
  start := by simp
  noOut := by simp
  outWf := by simpa using OutBuffer.wf_empty _
  latched _ := latched_latchHeader cs h.cfg hp
  before _ := (latched_latchHeader cs h.cfg hp).npxBounds.1
  after := by simp

/-- Memory below `a`, with as many bytes written from `a` on, is written exactly below their end. -/
theorem isSome_read_writeBytes {m : Memory} {a : Nat} {vs : List Byte}
    (h : ∀ k, (Memory.read m k).isSome ↔ k < a) (k : Nat) :
    (Memory.read (Memory.writeBytes m a vs) k).isSome ↔ k < a + vs.length := by
  by_cases hk : k < a ∨ a + vs.length ≤ k
  · rw [Memory.read_writeBytes_of_outside _ _ _ hk, h]
    omega
  · obtain ⟨j, rfl⟩ := Nat.exists_eq_add_of_le (show a ≤ k by omega)
    have hj : j < vs.length := by omega
    simp [Memory.read_writeBytes _ _ _ _ hj, hj]

/-- Where the buffer is written below the position, a pixel's write moves that bound on by one pixel. -/
theorem isSome_read_writePixel {s : State} {b : OutBuffer}
    (h : ∀ a, (Memory.read b.mem a).isSome ↔ a < s.pos.toNat * stride s.channels) (q : Pixel) (a : Nat) :
    (Memory.read (s.writePixel q b).mem a).isSome ↔ a < (s.pos.toNat + 1) * stride s.channels := by
  rw [State.writePixel, isSome_read_writeBytes h, pixelBytes_length, Nat.add_mul, Nat.one_mul]

/-- A slot after the cache update holds the pixel if the pixel hashes to it, and what it held before if not. -/
theorem cacheGet_cacheUpdate (c : Config) (cache : Vector Pixel 64) (q : Pixel) (i : Slot) :
    cacheGet (cacheUpdate c cache q) i = if hash c q = i then q else cacheGet cache i := by
  split
  case isTrue hi => rw [← hi, cacheGet_cacheUpdate_self]
  case isFalse hi => exact cacheGet_cacheUpdate_of_ne c cache q (Ne.symm hi)

/-- A slot after the cache update holds its seed or a pixel that hashes to it, if it did before. -/
theorem slots_cacheUpdate {c : Config} {cache : Vector Pixel 64} {seed : Pixel}
    (h : ∀ i, cacheGet cache i = seed ∨ hash c (cacheGet cache i) = i) (q : Pixel) (i : Slot) :
    cacheGet (cacheUpdate c cache q) i = seed ∨ hash c (cacheGet (cacheUpdate c cache q) i) = i := by
  rw [cacheGet_cacheUpdate]
  split
  case isTrue hi => exact .inr hi
  case isFalse => exact h i

/-- A pixel committed keeps what holds from the HEADER step on, in the next position. -/
theorem latched_afterPixel {s : State} {q : Pixel} {run : BitVec 6} {n : Nat} {b : OutBuffer} (h : s.Inv)
    (hp : s.phase = .pixels) (hsrc : PixelSource s q run n) (hb : s.out = some b) :
    (s.afterPixel q run n (s.writePixel q b)).Latched := by
  have hl := h.latched (.inl hp)
  obtain ⟨hcursor, hcursorLe⟩ := hl.cursor
  obtain ⟨b', hb', hsize, hwritten⟩ := hl.out
  obtain rfl : b = b' := Option.some.inj (hb.symm.trans hb')
  rw [← stride_eq _ hl.channels] at hwritten
  refine ⟨hl.width, hl.height, hl.channels, hl.npx, hl.npxBounds, ?cursor, ?slots, ?out⟩
  case cursor =>
    have hn := hsrc.length_le
    show s.cfg.hdrLen ≤ (s.p + BitVec.ofNat 32 n).toNat ∧ (s.p + BitVec.ofNat 32 n).toNat ≤ s.len
    rw [toNat_cursor_add h.len hcursorLe hn]
    omega
  case slots => exact slots_cacheUpdate hl.slots q
  case out =>
    refine ⟨_, rfl, hsize, fun a => ?_⟩
    rw [isSome_read_writePixel hwritten, State.afterPixel_pos, toNat_pos_succ (h.before hp),
      State.afterPixel_channels, stride_eq _ hl.channels]

/-- A pixel step that commits its pixel keeps the invariant (41_pixel_step.md R131). -/
theorem inv_afterPixel {s : State} {q : Pixel} {run : BitVec 6} {n : Nat} {b : OutBuffer} (h : s.Inv)
    (hp : s.phase = .pixels) (hsrc : PixelSource s q run n) (hb : s.out = some b)
    (hroom : s.pos.toNat * stride s.channels + stride s.channels ≤ b.len) :
    (s.afterPixel q run n (s.writePixel q b)).Inv where
  cfg := h.cfg
  len := h.len
  err := by simp [h.err_eq_none, hp]
  run := hsrc.run_le h.cfg h.run
  start := by simp
  noOut := by simp
  outWf := by
    rintro _ ⟨⟩
    exact OutBuffer.wf_writeBytes b _ _ (h.outWf b hb) (by rwa [pixelBytes_length])
  latched _ := latched_afterPixel h hp hsrc hb
  before hpixels := by
    have hne : ¬ s.pos + 1 = s.npx := by simpa using hpixels
    have hlt := h.before hp
    simp only [State.afterPixel_pos, State.afterPixel_npx]
    bv_omega
  after htrailer := by
    have heq : s.pos + 1 = s.npx := by simpa using htrailer
    exact congrArg BitVec.toNat heq

/-- A trailer accepted keeps the invariant (46_trailer.md R201). -/
theorem inv_done {s : State} (h : s.Inv) (hp : s.phase = .trailer) : State.Inv { s with phase := .done } where
  cfg := h.cfg
  len := h.len
  err := by simp [h.err_eq_none, hp]
  run := h.run
  start := by simp
  noOut := by simp
  outWf := h.outWf
  latched _ := by
    obtain ⟨hw, hh, hch, hn, hb, hc, hs, ho⟩ := h.latched (.inr (.inl hp))
    exact ⟨hw, hh, hch, hn, hb, hc, hs, ho⟩
  before := by simp
  after _ := h.after (.inl hp)

/-- Every decoder step keeps the invariant. -/
theorem DecoderStep.inv {s t : State} (hstep : DecoderStep s t) (h : s.Inv) : t.Inv := by
  cases hstep with
  | raised e => exact inv_raise e h
  | header cs hp he => exact inv_latchHeader cs h hp (headerError_eq_none_iff.1 he)
  | pixel hp hsrc hb hroom => exact inv_afterPixel h hp hsrc hb hroom
  | trailer hp => exact inv_done h hp

/-- The parameters of R7 meet R8 (00_scope.md). -/
theorem wf_standardConfig : standardConfig.Wf := by
  constructor <;> decide

/-- Settles O54: reset is a hardware reset under the standard parameters. -/
theorem resetMeetsTheInvariant : Obligations.ResetMeetsTheInvariant :=
  inv_hardReset (s := State.reset) wf_standardConfig

/-- Settles O55: each update a step can end in keeps the invariant. -/
theorem everyStepKeepsTheInvariant : Obligations.EveryStepKeepsTheInvariant := by
  intro s t h hstep
  cases hc : s.cmd with
  | none => exact (decoderStep_of_step hc hstep).inv h
  | some c =>
    obtain ⟨-, rfl⟩ | ⟨stream, -, -, hlen, rfl⟩ := takeCommand_next (takeCommand_of_step hc hstep)
    · exact inv_hardReset h.cfg
    · exact inv_startStep h hlen

end Sys2Proof.Machine
end

section
/-! The colour cache over a decode (10_state.md R32). -/

namespace Sys2Proof.Machine

/-- The rule of 10_state.md R32, one pixel at a time. -/
theorem lastInSlot_cons (c : Config) (i : Slot) (earlier q : Pixel) (produced : List Pixel) :
    lastInSlot c i earlier (q :: produced) = lastInSlot c i (if hash c q = i then q else earlier) produced := rfl

/-- A decoder step other than HEADER's puts into a slot the pixel it produces, if it produces one that hashes to the slot
(41_pixel_step.md R137). -/
theorem DecoderStep.cacheGet_eq {s t : State} (h : DecoderStep s t) (hp : s.phase ≠ .header) (i : Slot) :
    cacheGet t.cache i =
      if s.phase = .pixels ∧ t.phase ≠ .error then if hash s.cfg t.px = i then t.px else cacheGet s.cache i
      else cacheGet s.cache i := by
  cases h with
  | raised => simp
  | header cs hheader => exact absurd hheader hp
  | pixel hpixels =>
    rw [if_pos ⟨hpixels, phaseAfterPixel_ne_error _ _⟩]
    exact cacheGet_cacheUpdate ..
  | trailer htrailer => simp [htrailer]

/-- Over any steps after HEADER's, a slot holds the last pixel produced that hashes to it, or what it held before
(10_state.md R32). -/
theorem cacheGet_steps {s t : State} {n : Nat} (hc : s.cmd = none) (hp : s.phase ≠ .header)
    (h : steps n s = .next t) (i : Slot) :
    cacheGet t.cache i = lastInSlot s.cfg i (cacheGet s.cache i) (pixelsProduced n s) := by
  induction n generalizing s with
  | zero => cases h; rfl
  | succ n ih =>
    cases hs : step s with
    | next u =>
      have hstep := decoderStep_of_step hc hs
      simp only [steps, hs] at h
      rw [ih (hstep.cmd_eq.trans hc) hstep.phase_ne_header h, hstep.cfg_eq, hstep.cacheGet_eq hp]
      simp only [pixelsProduced, hs]
      split
      case isTrue => exact (lastInSlot_cons ..).symm
      case isFalse => rfl
    | fault r => simp [steps, hs] at h
    | refused r => simp [steps, hs] at h

/-- Settles O25: induction on the steps, each of which puts at most its own pixel into the slot. -/
theorem slotHoldsLastPixelOfItsHash : Obligations.SlotHoldsLastPixelOfItsHash :=
  fun _ _ _ i hc hp h => cacheGet_steps hc (by simp [hp]) h i

end Sys2Proof.Machine
end

section
/-! The registers over each kind of step: life cycle, parameters, header registers, cursor. -/

namespace Sys2Proof.Machine

/-- The seed, channel by channel (10_state.md R44). -/
theorem cacheSeed_eq (c : Config) (ch : Byte) :
    cacheSeed c ch = ⟨0, 0, 0, if c.seedOpaque3Ch = true ∧ ch = 3 then 255 else 0⟩ := by
  simp [cacheSeed]

/-- Settles O44: the values of the three updates, the product of a header that passes being exact. -/
theorem resetStartAndHeaderValues : Obligations.ResetStartAndHeaderValues := by
  refine ⟨fun s t h => ?reset, fun s t stream h => ?start, fun s t m w ht ch cs hc herr h hne => ?header, rfl⟩
  case reset =>
    obtain rfl := step_present_hardReset h
    exact ⟨rfl, rfl, rfl⟩
  case start =>
    obtain ⟨-, -, rfl⟩ := step_present_start h
    exact ⟨rfl, rfl, rfl, rfl⟩
  case header =>
    obtain ⟨-, ⟨e, -, rfl⟩ | ⟨he, rfl⟩⟩ := execHeader_next h
    · simp at hne
    · have harea := (headerError_eq_none_iff.1 he).toNat_area hc
      exact ⟨rfl, herr, latchHeader_p_eq w ht ch cs hc, rfl, rfl, rfl, rfl, harea, rfl, rfl, rfl,
        fun i => by rw [latchHeader_cache, cacheGet_replicate, cacheSeed_eq], ⟨_, rfl, rfl⟩,
        fun a => by simp [State.outByte, Memory.read]⟩

/-- Settles O46: by what a decoder step can end in, and by the two commands. -/
theorem phasesFollowTheLifeCycle : Obligations.PhasesFollowTheLifeCycle := by
  refine ⟨rfl, fun s t hc h => ?decoder, fun s t stream h => ?start, fun s t h => ?reset, fun s h => ?inv⟩
  case decoder =>
    cases decoderStep_of_step hc h with
    | raised e hd => obtain hp | hp | hp := hd <;> simp [hp]
    | header cs hp => simp [hp]
    | pixel hp => by_cases hlast : s.pos + 1#32 = s.npx <;> simp [hp, hlast]
    | trailer hp => simp [hp]
  case start =>
    obtain ⟨hp, -, rfl⟩ := step_present_start h
    exact ⟨Phase.canStart_iff.1 hp, rfl⟩
  case reset =>
    obtain rfl := step_present_hardReset h
    rfl
  case inv => exact ⟨h.before, by rw [← h.err, Option.isSome_iff_ne_none]⟩

/-- Settles O47: no decoder step and no command writes a parameter, and a start binds the stream it carries. -/
theorem streamAndParametersAreFixed : Obligations.StreamAndParametersAreFixed := by
  refine ⟨fun s t h => ?cfg, fun s t hc h => ?stream, fun s t stream h => ?start⟩
  case cfg =>
    cases hc : s.cmd with
    | none => exact (decoderStep_of_step hc h).cfg_eq
    | some c => obtain ⟨-, rfl⟩ | ⟨stream, -, -, -, rfl⟩ := takeCommand_next (takeCommand_of_step hc h) <;> rfl
  case stream =>
    have hstream := (decoderStep_of_step hc h).stream_eq
    exact ⟨hstream, congrArg List.length hstream⟩
  case start =>
    obtain ⟨-, hlen, rfl⟩ := step_present_start h
    exact ⟨rfl, rfl, hlen⟩

/-- Settles O48: of the four things a decoder step can end in, the header latched alone writes them. -/
theorem onlyHeaderWritesHeaderRegisters : Obligations.OnlyHeaderWritesHeaderRegisters := by
  intro s t hc h hor
  cases decoderStep_of_step hc h with
  | raised => simp
  | header cs hp => simp [hp] at hor
  | pixel => simp
  | trailer => simp

/-- Where each decoder step that raises nothing leaves the cursor (10_state.md R27): after the header, after the bytes of
the pixel, where it was. -/
theorem DecoderStep.cursor {s t : State} (h : DecoderStep s t) (hne : t.phase ≠ .error) :
    (s.phase = .header → t.p = BitVec.ofNat 32 s.cfg.hdrLen) ∧
      (s.phase = .pixels → ∃ q run n, PixelSource s q run n ∧ t.p = s.p + BitVec.ofNat 32 n) ∧
      (s.phase = .trailer → t.p = s.p) := by
  cases h with
  | raised => simp at hne
  | header cs hp => simp [hp]
  | pixel hp hsrc => simpa [hp] using ⟨_, _, _, hsrc, rfl⟩
  | trailer hp => simp [hp]

/-- Settles O50: the carry-over reads no byte, and a chunk's bytes, at most what is left of the stream, do not wrap the
cursor. -/
theorem cursorMovesByTheRecord : Obligations.CursorMovesByTheRecord := by
  intro s t hinv h hne
  have cursor := fun hc => (decoderStep_of_step (s := s) hc h).cursor hne
  refine ⟨fun stream hc => ?start, fun hc hp => ⟨hinv.start hp, ?header⟩, fun hc hp hr => ?carryOver,
    fun hc hp hr => ?chunk, fun hc hp => ?trailer⟩
  case start =>
    obtain ⟨hreset, -⟩ | ⟨_, -, -, -, rfl⟩ := takeCommand_next (takeCommand_of_step hc h)
    · cases hreset
    · rfl
  case header =>
    obtain ⟨header, -, -⟩ := cursor hc
    rw [header hp, hinv.cfg.headerLength]
    rfl
  case carryOver =>
    obtain ⟨-, pixel, -⟩ := cursor hc
    obtain ⟨q, run, n, ⟨hr', -⟩ | ⟨-, rfl, -⟩, hcursor⟩ := pixel hp
    · exact absurd hr' hr
    · simpa using hcursor
  case chunk =>
    obtain ⟨-, pixel, -⟩ := cursor hc
    obtain ⟨q, run, n, hsrc, hcursor⟩ := pixel hp
    have hmoved := toNat_cursor_add hinv.len (hinv.latched (.inl hp)).cursor.2 hsrc.length_le
    obtain ⟨-, i, rest, hd, rfl, -⟩ | ⟨hr', -⟩ := hsrc
    · refine ⟨i, rest, hd, ?_⟩
      have hchunk := (decodeChunk_ok hd).1
      rw [hcursor, hmoved]
      cases i with
      | header => cases hchunk
      | trailer => cases hchunk
      | _ => rfl
    · exact absurd hr hr'
  case trailer =>
    obtain ⟨-, -, trailer⟩ := cursor hc
    exact trailer hp

end Sys2Proof.Machine
end

section
/-! The header's words as numbers (20_memory.md R60, 40_header.md R112). -/

namespace Sys2Proof

/-- A byte appended at the low end is one more digit to the base 256. -/
theorem toNat_append_byte {n : Nat} (high : BitVec n) (low : Byte) :
    (high ++ low).toNat = high.toNat * 2 ^ 8 + low.toNat := by
  rw [BitVec.toNat_append, ← Nat.shiftLeft_add_eq_or_of_lt low.isLt, Nat.shiftLeft_eq]

/-- A word of four bytes is the number whose first byte weighs most. -/
theorem be32_toNat (b0 b1 b2 b3 : Byte) :
    (be32 b0 b1 b2 b3).toNat = b0.toNat * 2 ^ 24 + b1.toNat * 2 ^ 16 + b2.toNat * 2 ^ 8 + b3.toNat := by
  simp only [be32, toNat_append_byte]
  omega

/-- Settles O6: the header's three words are read big-endian, its last two bytes whole. -/
theorem headerFieldsAreBigEndian : Obligations.HeaderFieldsAreBigEndian :=
  fun _ _ _ _ _ _ _ _ _ _ _ _ _ _ _ => ⟨_, _, _, rfl, be32_toNat .., be32_toNat .., be32_toNat ..⟩

end Sys2Proof
end

section
/-! The output buffer's bytes and the result the host gets (20_memory.md R57, R58). -/

namespace Sys2Proof.Machine

/-- From the HEADER step on exactly the bytes of the positions produced are written. -/
theorem State.Latched.isSome_outByte {s : State} (h : s.Latched) (a : Nat) :
    (s.outByte a).isSome ↔ a < s.pos.toNat * s.channels.toNat := by
  obtain ⟨b, hb, -, hwritten⟩ := h.out
  simpa [State.outByte, hb] using hwritten a

/-- A pixel's write leaves every byte below the pixel's position as it was (41_pixel_step.md R138). -/
theorem outByte_afterPixel_of_lt {s : State} {b : OutBuffer} (hb : s.out = some b) (q : Pixel) (run : BitVec 6)
    (n : Nat) {a : Nat} (ha : a < s.pos.toNat * stride s.channels) :
    (s.afterPixel q run n (s.writePixel q b)).outByte a = s.outByte a := by
  simpa [State.outByte, State.writePixel, hb] using Memory.read_writeBytes_of_outside b.mem _ _ (.inl ha)

/-- Settles O52: the invariant bounds the written bytes by the position, and a pixel is written at that bound. -/
theorem outputBytesWrittenOnceInOrder : Obligations.OutputBytesWrittenOnceInOrder := by
  refine ⟨fun s t hinv hc hp hstep hne => ?pixel, fun s hinv hdone a => ?done⟩
  case pixel =>
    have hl := hinv.latched (.inl hp)
    cases decoderStep_of_step hc hstep with
    | raised => simp at hne
    | header cs hheader => simp [hp] at hheader
    | trailer htrailer => simp [hp] at htrailer
    | pixel _ hsrc hb =>
      refine ⟨fun a => ?_, fun a v hv => ?_⟩
      · rw [(latched_afterPixel hinv hp hsrc hb).isSome_outByte, State.afterPixel_pos, State.afterPixel_channels,
          toNat_pos_succ (hinv.before hp)]
      · have ha : a < s.pos.toNat * s.channels.toNat := (hl.isSome_outByte a).1 (by simp [hv])
        rw [outByte_afterPixel_of_lt hb _ _ _ (by rwa [stride_eq _ hl.channels]), hv]
  case done =>
    rw [(hinv.latched (.inr (.inr hdone))).isSome_outByte, hinv.after (.inr hdone)]

/-- At DONE the result is the header's four values and the bytes read from the whole buffer (20_memory.md R58). -/
theorem answer_of_done {s : State} (hp : s.phase = .done) {b : OutBuffer} (hb : s.out = some b) {bytes : List Byte}
    (hread : readBytes b.mem 0 b.len = some bytes) :
    s.answer = some (.ok ⟨s.width, s.height, s.channels, s.colorspace, bytes⟩) := by
  simp [State.answer, hp, hb, hread]

/-- At ERROR the result is the error kind alone (60_exceptions.md R214). -/
theorem answer_of_error {s : State} (hp : s.phase = .error) {e : FormatError} (he : s.err = some e) :
    s.answer = some (.error e) := by
  simp [State.answer, hp, he]

/-- Before a decode is over there is no result (20_memory.md R58). -/
theorem answer_of_not_over {s : State} (hdone : s.phase ≠ .done) (herror : s.phase ≠ .error) : s.answer = none := by
  cases hp : s.phase with
  | done => exact absurd hp hdone
  | error => exact absurd hp herror
  | _ => simp [State.answer, hp]

/-- At DONE every byte of the buffer is written, so that the result is an image of them all. -/
theorem State.Inv.answer_done {s : State} (h : s.Inv) (hp : s.phase = .done) :
    ∃ bytes, s.answer = some (.ok ⟨s.width, s.height, s.channels, s.colorspace, bytes⟩) ∧
      bytes.length = s.npx.toNat * s.channels.toNat ∧ ∀ a, a < bytes.length → bytes[a]? = s.outByte a := by
  obtain ⟨b, hb, hsize, hwritten⟩ := (h.latched (.inr (.inr hp))).out
  rw [h.after (.inr hp), ← hsize] at hwritten
  obtain ⟨bytes, hread, hlength, hbytes⟩ :=
    readBytes_of_written b.mem 0 b.len fun a _ ha => (hwritten a).2 (by simpa using ha)
  refine ⟨bytes, answer_of_done hp hb hread, hlength.trans hsize, fun a ha => ?_⟩
  simpa [State.outByte, hb] using hbytes a (hlength ▸ ha)

/-- Settles O53: phase by phase; at DONE the buffer is written whole, at ERROR a code stands in `err`. -/
theorem resultIsImageOrError : Obligations.ResultIsImageOrError := by
  refine fun s hinv => ⟨hinv.answer_done, fun hp => ?error, answer_of_not_over⟩
  case error =>
    obtain ⟨e, he⟩ := Option.isSome_iff_exists.1 (hinv.err.2 hp)
    exact ⟨e, he, answer_of_error hp he⟩

end Sys2Proof.Machine
end

section
/-! What the start and HEADER steps leave of the decode before them (20_memory.md R74). -/

namespace Sys2Proof.Machine

/-- Steps that run to the end begin with one that gives a next state. -/
theorem steps_succ_next {s t : State} {n : Nat} (h : steps (n + 1) s = .next t) :
    ∃ u, step s = .next u ∧ steps n u = .next t := by
  cases hs : step s with
  | next u => exact ⟨u, rfl, by simpa [steps, hs] using h⟩
  | fault r => simp [steps, hs] at h
  | refused r => simp [steps, hs] at h

/-- The start and the HEADER step in one: the start was taken, and the next step runs from where it leads. -/
theorem step_startStep_of_steps {s t : State} {stream : List Byte}
    (h : steps 2 (s.present (.start stream)) = .next t) : step (startStep stream s) = .next t := by
  obtain ⟨u, hu, h⟩ := steps_succ_next h
  obtain ⟨-, -, rfl⟩ := step_present_start hu
  obtain ⟨_, hv, ⟨⟩⟩ := steps_succ_next h
  exact hv

/-- A header that decodes is what the step after a start executes (40_header.md R111). -/
theorem step_startStep_of_decode {stream rest : List Byte} {m w h : Word} {ch cs : Byte}
    (hd : decodeHeader stream = .ok (.header m w h ch cs, rest)) (s : State) :
    step (startStep stream s) = execHeader m w h ch cs (startStep stream s) := by
  obtain ⟨_, _, _, _, _, _, hok, hstep⟩ | ⟨hlen, -⟩ := step_header (s := startStep stream s) rfl rfl
  · rw [startStep_stream, hd] at hok
    cases hok
    exact hstep
  · exact absurd hlen (Nat.not_lt.2 (decodeHeader_ok hd).2.1)

/-- The parameters and the stream alone decide how the HEADER step after a start ends: in which error, or with which
header latched (40_header.md R111). -/
theorem step_startStep_uniform (c : Config) (stream : List Byte) :
    (∃ e, ∀ s : State, s.cfg = c → step (startStep stream s) = .next (raise e (startStep stream s))) ∨
      ∃ w h ch cs, ∀ s : State, s.cfg = c →
        step (startStep stream s) = .next (latchHeader w h ch cs (startStep stream s)) := by
  cases hd : decodeHeader stream with
  | error e =>
    refine .inl ⟨.tooShort, fun s _ => ?_⟩
    obtain ⟨_, _, _, _, _, _, hok, -⟩ | ⟨-, hstep⟩ := step_header (s := startStep stream s) rfl rfl
    · rw [startStep_stream, hd] at hok
      cases hok
    · exact hstep
  | ok d =>
    obtain ⟨i, rest⟩ := d
    obtain ⟨⟨m, w, h, ch, cs, rfl⟩, -, -⟩ := decodeHeader_ok hd
    cases he : headerError c stream.length m w h ch with
    | some e =>
      refine .inl ⟨e, ?_⟩
      rintro s rfl
      rw [step_startStep_of_decode hd, execHeader_fail cs rfl he]
    | none =>
      refine .inr ⟨w, h, ch, cs, ?_⟩
      rintro s rfl
      rw [step_startStep_of_decode hd, execHeader_pass cs rfl he]

/-- Between them, a start and a header that passes write every register but the parameters and the model's count of
draws (70_reset_and_hazards.md R252, R253). -/
theorem latchHeader_startStep_congr {s₁ s₂ : State} (hcfg : s₁.cfg = s₂.cfg) (stream : List Byte) (w h : Word)
    (ch cs : Byte) :
    latchHeader w h ch cs (startStep stream s₁) =
      { latchHeader w h ch cs (startStep stream s₂) with draws := s₁.draws } := by
  simp [latchHeader, startStep, hcfg]

/-- Settles O56: the HEADER step ends alike in both machines, and a header that passes overwrites what is left of what
they held before. -/
theorem nothingSurvivesAStart : Obligations.NothingSurvivesAStart := by
  intro s₁ s₂ t₁ t₂ stream hcfg h₁ h₂
  replace h₁ := step_startStep_of_steps h₁
  replace h₂ := step_startStep_of_steps h₂
  obtain ⟨e, hstep⟩ | ⟨w, h, ch, cs, hstep⟩ := step_startStep_uniform s₂.cfg stream
  · cases (hstep _ hcfg).symm.trans h₁
    cases (hstep _ rfl).symm.trans h₂
    simp [State.status]
  · cases (hstep _ hcfg).symm.trans h₁
    cases (hstep _ rfl).symm.trans h₂
    exact ⟨rfl, fun _ => latchHeader_startStep_congr hcfg stream w h ch cs⟩

end Sys2Proof.Machine
end

section
/-! A byte as a tag and its fields, and the kind of chunk it opens (30_encoding.md R83 to R92). -/

namespace Sys2Proof

/-- Bits put in front of others weigh more by the others' width. -/
theorem toNat_append_fields {m n : Nat} (high : BitVec m) (low : BitVec n) :
    (high ++ low).toNat = high.toNat * 2 ^ n + low.toNat := by
  rw [BitVec.toNat_append, ← Nat.shiftLeft_add_eq_or_of_lt low.isLt, Nat.shiftLeft_eq]

/-- A bit-slice as a number (00_scope.md R9). -/
theorem toNat_slice (b : Byte) (lo n : Nat) : (slice b lo n).toNat = b.toNat / 2 ^ lo % 2 ^ n := by
  simp [slice, BitVec.extractLsb'_toNat, Nat.shiftRight_eq_div_pow]

/-- A tag in place and a 6-bit field share no bit: the byte they make is their sum. -/
theorem toNat_tagged {t : Byte} (ht : t &&& 0xC0 = t) (f : BitVec 6) :
    (t ||| f.setWidth 8).toNat = t.toNat + f.toNat := by
  have hf := f.isLt
  rw [BitVec.toNat_or, BitVec.toNat_setWidth, Nat.mod_eq_of_lt (by omega), toNat_of_inPlace ht, Nat.mul_comm,
    Nat.two_pow_add_eq_or_of_lt (i := 6) hf]

/-- The byte made of a tag in place and a field carries that tag. -/
theorem tagged_and_tagMask {c : Config} (hc : c.Wf) {t : Byte} (ht : t &&& c.tagMask = t) (f : BitVec 6) :
    (t ||| f.setWidth 8) &&& c.tagMask = t := by
  rw [hc.mask] at ht ⊢
  have := toNat_of_inPlace ht
  rw [and_mask_eq_iff _ ht, toNat_tagged ht]
  omega

/-- The byte made of a tag in place and a field holds that field in its low six bits. -/
theorem slice_tagged {c : Config} (hc : c.Wf) {t : Byte} (ht : t &&& c.tagMask = t) (f : BitVec 6) :
    slice (t ||| f.setWidth 8) 0 6 = f := by
  rw [hc.mask] at ht
  have := toNat_of_inPlace ht
  apply BitVec.eq_of_toNat_eq
  rw [toNat_slice, toNat_tagged ht]
  omega

/-- A byte is the tag it carries and its low six bits. -/
theorem tagged_slice {c : Config} (hc : c.Wf) {t b : Byte} (h : b &&& c.tagMask = t) :
    t ||| (slice b 0 6).setWidth 8 = b := by
  rw [hc.mask] at h
  have ht : t &&& 0xC0 = t := by rw [← h, BitVec.and_assoc, BitVec.and_self]
  apply BitVec.eq_of_toNat_eq
  rw [toNat_tagged ht, toNat_slice, ← h, toNat_and_mask]
  omega

/-- The low six bits of a DIFF byte are its three fields side by side (30_encoding.md R87). -/
theorem slices_append (b : Byte) : slice b 4 2 ++ slice b 2 2 ++ slice b 0 2 = slice b 0 6 := by
  apply BitVec.eq_of_toNat_eq
  simp only [toNat_append_fields, toNat_slice]
  omega

/-- A byte whose low six bits are three fields side by side has those fields (30_encoding.md R87). -/
theorem slices_of_append {b : Byte} {x y z : BitVec 2} (h : slice b 0 6 = x ++ y ++ z) :
    slice b 4 2 = x ∧ slice b 2 2 = y ∧ slice b 0 2 = z := by
  replace h := congrArg BitVec.toNat h
  simp only [toNat_slice, toNat_append_fields] at h
  refine ⟨?_, ?_, ?_⟩ <;> (apply BitVec.eq_of_toNat_eq; rw [toNat_slice]; omega)

/-- The second byte of LUMA is its two 4-bit fields side by side (30_encoding.md R88). -/
theorem halves_append (b : Byte) : slice b 4 4 ++ slice b 0 4 = b := by
  apply BitVec.eq_of_toNat_eq
  simp only [toNat_append_fields, toNat_slice]
  omega

/-- Two 4-bit fields side by side are read back (30_encoding.md R88). -/
theorem halves_of_append (x y : BitVec 4) : slice (x ++ y) 4 4 = x ∧ slice (x ++ y) 0 4 = y := by
  constructor <;> (apply BitVec.eq_of_toNat_eq; rw [toNat_slice, toNat_append_fields]; omega)

/-- What the first byte of a chunk of each kind is: a literal tag whole, or a tag under the mask, RUN with a field up to
`RUN_FIELD_MAX` (30_encoding.md R83 to R89). -/
def ChunkKind.Opens (c : Config) (b1 : Byte) : ChunkKind → Prop
  | .rgb => b1 = c.tagRgb
  | .rgba => b1 = c.tagRgba
  | .index => b1 &&& c.tagMask = c.tagIndex
  | .diff => b1 &&& c.tagMask = c.tagDiff
  | .luma => b1 &&& c.tagMask = c.tagLuma
  | .run => b1 &&& c.tagMask = c.tagRun ∧ (slice b1 0 6).toNat ≤ c.runFieldMax

/-- The kind found by the tests of 30_encoding.md R90 is one the byte opens. -/
theorem opens_chunkKind {c : Config} (hc : c.Wf) (b1 : Byte) : (chunkKind c b1).Opens c b1 := by
  cases h : chunkKind c b1 with
  | run =>
    obtain ⟨-, -, -, hrun⟩ := hc.tagsInPlace
    have hclass := runClass_of_chunkKind hc h
    refine ⟨?_, runField_le_of_chunkKind hc h⟩
    rw [hc.mask] at hrun ⊢
    rwa [and_mask_eq_iff b1 hrun]
  | _ => unfold chunkKind at h; split_ifs at h; assumption

/-- No byte outside the RUN class, and none with a RUN field, is a literal tag (30_encoding.md R92, 00_scope.md R8 c). -/
theorem not_literal {c : Config} (hc : c.Wf) {b1 : Byte}
    (h : b1 &&& c.tagMask ≠ c.tagRun ∨ (slice b1 0 6).toNat ≤ c.runFieldMax) : b1 ≠ c.tagRgb ∧ b1 ≠ c.tagRgba := by
  obtain ⟨hrgb, hrgba⟩ := hc.literalsInRun
  obtain ⟨hrgbField, hrgbaField⟩ := hc.literalsAboveRun
  constructor <;> rintro rfl
  · exact h.elim (absurd hrgb) (Nat.not_le.2 hrgbField)
  · exact h.elim (absurd hrgba) (Nat.not_le.2 hrgbaField)

/-- The tests of 30_encoding.md R90 find the kind a byte opens: the classes are disjoint. -/
theorem chunkKind_of_opens {c : Config} (hc : c.Wf) {b1 : Byte} {k : ChunkKind} (h : k.Opens c b1) :
    chunkKind c b1 = k := by
  have distinct := hc.tagsDistinct
  simp only [List.nodup_cons, List.mem_cons, List.not_mem_nil, or_false, not_or] at distinct
  obtain ⟨⟨hid, hil, hir⟩, ⟨hdl, hdr⟩, hlr, -⟩ := distinct
  cases k with
  | rgb => simp [chunkKind, show b1 = c.tagRgb from h]
  | rgba => simp [chunkKind, show b1 = c.tagRgba from h, hc.literalsDistinct.symm]
  | index =>
    replace h : b1 &&& c.tagMask = c.tagIndex := h
    simp [chunkKind, not_literal hc (.inl (h ▸ hir)), h]
  | diff =>
    replace h : b1 &&& c.tagMask = c.tagDiff := h
    simp [chunkKind, not_literal hc (.inl (h ▸ hdr)), h, Ne.symm hid]
  | luma =>
    replace h : b1 &&& c.tagMask = c.tagLuma := h
    simp [chunkKind, not_literal hc (.inl (h ▸ hlr)), h, Ne.symm hil, Ne.symm hdl]
  | run =>
    obtain ⟨hclass, hfield⟩ := h
    simp [chunkKind, not_literal hc (.inr hfield), hclass, Ne.symm hir, Ne.symm hdr, Ne.symm hlr]

end Sys2Proof
end

section
/-! Decoding and encoding are inverse to each other (30_encoding.md R80 to R95). -/

namespace Sys2Proof

/-- A chunk's fields are read under the kind of its first byte (41_pixel_step.md R134). -/
theorem decodeChunk_of_kind {c : Config} {b1 : Byte} {k : ChunkKind} (h : chunkKind c b1 = k) (rest : List Byte) :
    decodeChunk c (b1 :: rest) = decodeFields b1 k rest := by
  rw [decodeChunk, h]

/-- The four bytes of a word make the word. -/
theorem be32_of_bytes (w : Word) :
    be32 (w.extractLsb' 24 8) (w.extractLsb' 16 8) (w.extractLsb' 8 8) (w.extractLsb' 0 8) = w := by
  apply BitVec.eq_of_toNat_eq
  simp only [be32_toNat, BitVec.extractLsb'_toNat, Nat.shiftRight_eq_div_pow]
  omega

/-- A word of four bytes is written as those bytes. -/
theorem be32Bytes_be32 (b0 b1 b2 b3 : Byte) : be32Bytes (be32 b0 b1 b2 b3) = [b0, b1, b2, b3] := by
  simp only [be32Bytes, List.cons.injEq, and_true]
  refine ⟨?_, ?_, ?_, ?_⟩ <;> apply BitVec.eq_of_toNat_eq <;>
    rw [BitVec.extractLsb'_toNat, Nat.shiftRight_eq_div_pow, be32_toNat] <;> omega

/-- The first byte of an encoded chunk opens its kind, and the fields read under that kind are the chunk's own. -/
theorem exists_opens_of_encode {c : Config} (hc : c.Wf) {i : Instr} (hi : i.recordKind = .chunk)
    (hw : i.wellFormed c = true) (rest : List Byte) :
    ∃ b1 k bytes, encode c i ++ rest = b1 :: bytes ∧ k.Opens c b1 ∧ decodeFields b1 k bytes = .ok (i, rest) := by
  obtain ⟨hindex, hdiff, hluma, hrun⟩ := hc.tagsInPlace
  cases i with
  | rgb => exact ⟨_, .rgb, _, rfl, rfl, rfl⟩
  | rgba => exact ⟨_, .rgba, _, rfl, rfl, rfl⟩
  | index idx =>
    refine ⟨_, .index, _, rfl, tagged_and_tagMask hc hindex idx, ?_⟩
    simp [decodeFields, slice_tagged hc hindex]
  | diff dr dg db =>
    refine ⟨_, .diff, _, rfl, tagged_and_tagMask hc hdiff (dr ++ dg ++ db), ?_⟩
    obtain ⟨hr, hg, hb⟩ := slices_of_append (slice_tagged hc hdiff (dr ++ dg ++ db))
    simp [decodeFields, hr, hg, hb]
  | luma dg drDg dbDg =>
    refine ⟨_, .luma, _, rfl, tagged_and_tagMask hc hluma dg, ?_⟩
    obtain ⟨hr, hb⟩ := halves_of_append drDg dbDg
    simp [decodeFields, slice_tagged hc hluma, hr, hb]
  | run rl =>
    refine ⟨_, .run, _, rfl, ⟨tagged_and_tagMask hc hrun rl, ?_⟩, ?_⟩
    · rw [slice_tagged hc hrun]
      simpa [Instr.wellFormed] using hw
    · simp [decodeFields, slice_tagged hc hrun]
  | header => cases hi
  | trailer => cases hi

/-- Settles O4: a chunk's first byte selects its own kind, a header's words come back from their bytes, and a trailer has
the length that is read. -/
theorem decodeOfEncode : Obligations.DecodeOfEncode := by
  intro c i rest hc hw
  have chunk (hi : i.recordKind = .chunk) : decodeChunk c (encode c i ++ rest) = .ok (i, rest) := by
    obtain ⟨b1, k, bytes, hbytes, hopens, hfields⟩ := exists_opens_of_encode hc hi hw rest
    rw [hbytes, decodeChunk_of_kind (chunkKind_of_opens hc hopens), hfields]
  cases i with
  | header m w h ch cs => simp [decode, Instr.recordKind, encode, be32Bytes, decodeHeader, be32_of_bytes]
  | trailer pad =>
    have hlength : pad.length = c.padLen := by simpa [Instr.wellFormed] using hw
    simp [decode, Instr.recordKind, encode, decodeTrailer, ← hlength]
  | _ => exact chunk rfl

/-- The fields read under the kind a byte opens encode to the bytes they were read from. -/
theorem encode_of_decodeFields {c : Config} (hc : c.Wf) {b1 : Byte} {k : ChunkKind} (hopens : k.Opens c b1)
    {bytes : List Byte} {i : Instr} {rest : List Byte} (h : decodeFields b1 k bytes = .ok (i, rest)) :
    encode c i ++ rest = b1 :: bytes := by
  unfold decodeFields at h
  -- The ten arms of `decodeFields`, in order; `cases h` closes the four that refuse.
  split at h <;> cases h
  case h_1 | h_3 => rw [show b1 = _ from hopens]; rfl
  case h_5 => simp [encode, tagged_slice hc hopens]
  case h_6 => simp [encode, slices_append, tagged_slice hc hopens]
  case h_7 => simp [encode, halves_append, tagged_slice hc hopens]
  case h_9 => simp [encode, tagged_slice hc hopens.1]

/-- What is read as a header encodes to the bytes it was read from. -/
theorem encode_of_decodeHeader (c : Config) {bytes : List Byte} {i : Instr} {rest : List Byte}
    (h : decodeHeader bytes = .ok (i, rest)) : i.wellFormed c = true ∧ encode c i ++ rest = bytes := by
  unfold decodeHeader at h
  split at h <;> cases h
  exact ⟨rfl, by simp [encode, be32Bytes_be32]⟩

/-- Settles O5: the fields of a chunk lie side by side under its tag, a header's words are their four bytes, and a trailer
is the bytes themselves. -/
theorem encodeOfDecode : Obligations.EncodeOfDecode := by
  intro c k bytes i rest hc h
  suffices i.wellFormed c = true ∧ encode c i ++ rest = bytes from ⟨this.1, Machine.recordKind_of_decode h, this.2⟩
  cases k with
  | header => exact encode_of_decodeHeader c h
  | chunk =>
    refine ⟨wellFormed_of_decodeChunk hc h, ?_⟩
    cases bytes with
    | nil => cases h
    | cons b1 bytes => exact encode_of_decodeFields hc (opens_chunkKind hc b1) h
  | trailer =>
    obtain ⟨rfl, hlength, rfl⟩ := decodeTrailer_ok h
    simp [Instr.wellFormed, encode, hlength]

/-- Fields are refused only when fewer bytes are there than the chunk's length. -/
theorem length_of_decodeFields_error {b1 : Byte} {k : ChunkKind} {bytes : List Byte} {e : DecodeError}
    (h : decodeFields b1 k bytes = .error e) : bytes.length + 1 < chunkLength k := by
  cases k with
  | rgb =>
    rcases bytes with _ | ⟨r, _ | ⟨g, _ | ⟨b, rest⟩⟩⟩ <;> simp [decodeFields, chunkLength] at h ⊢
  | rgba =>
    rcases bytes with _ | ⟨r, _ | ⟨g, _ | ⟨b, _ | ⟨a, rest⟩⟩⟩⟩ <;> simp [decodeFields, chunkLength] at h ⊢
  | luma => cases bytes <;> simp [decodeFields, chunkLength] at h ⊢
  | _ => simp [decodeFields] at h

/-- Settles O3: whether a chunk decodes or not, its length is compared with the bytes there. -/
theorem onlyMissingBytesStopAChunk : Obligations.OnlyMissingBytesStopAChunk := by
  intro c b1 rest
  cases h : decodeChunk c (b1 :: rest) with
  | ok d =>
    obtain ⟨i, rest'⟩ := d
    obtain ⟨-, hlength, hroom, rfl⟩ := decodeFields_ok h
    exact ⟨fun _ => ⟨i, rfl, hlength⟩, fun hcut => by omega⟩
  | error e =>
    have hcut := length_of_decodeFields_error h
    obtain rfl := decodeChunk_error h
    exact ⟨fun hroom => by omega, fun _ => rfl⟩

end Sys2Proof
end

section
/-! The encoding under the standard parameters: the opcode map (30_encoding.md R91), the deltas (R93), words written out
bit by bit, and the assembler's lines (R100). -/

namespace Sys2Proof.Machine

/-- The kinds under the standard parameters, by value of the first byte (30_encoding.md R91). -/
theorem chunkKind_standardConfig (b1 : Byte) :
    chunkKind standardConfig b1 =
      if b1.toNat ≤ 0x3F then .index
      else if b1.toNat ≤ 0x7F then .diff
      else if b1.toNat ≤ 0xBF then .luma
      else if b1.toNat ≤ 0xFD then .run
      else if b1.toNat = 0xFE then .rgb
      else .rgba := by
  decide +revert

/-- Settles O2: the kinds by ranges of the first byte, and the low six bits of each range counted from its start. -/
theorem opcodeMapByFirstByte : Obligations.OpcodeMapByFirstByte := by
  refine ⟨fun b1 => ⟨chunkKind_standardConfig b1, ?length⟩, fun b1 rest h => ?index, fun b1 b2 rest hlo hhi => ?luma,
    fun b1 rest hlo hhi => ?run, by decide⟩
  case length =>
    grind [chunkKind_standardConfig, chunkLength]
  case index =>
    have hkind : chunkKind standardConfig b1 = .index := by grind [chunkKind_standardConfig]
    exact ⟨decodeChunk_of_kind hkind rest, by rw [toNat_slice]; omega⟩
  case luma =>
    have hkind : chunkKind standardConfig b1 = .luma := by grind [chunkKind_standardConfig]
    exact ⟨decodeChunk_of_kind hkind (b2 :: rest), by rw [toNat_slice]; omega⟩
  case run =>
    have hkind : chunkKind standardConfig b1 = .run := by grind [chunkKind_standardConfig]
    exact ⟨decodeChunk_of_kind hkind rest, by rw [toNat_slice]; omega⟩

/-- The values of a field of `n` bits less its bias (30_encoding.md R93). -/
theorem unbias_mem {n : Nat} (field : BitVec n) (bias : Nat) :
    -(bias : Int) ≤ unbias field bias ∧ unbias field bias < 2 ^ n - (bias : Int) := by
  have h : (field.toNat : Int) < 2 ^ n := by exact_mod_cast field.isLt
  unfold unbias
  omega

/-- Settles O7: each field's range is that of its width less its bias, and the combined deltas' the sum of two. -/
theorem deltaFieldRanges : Obligations.DeltaFieldRanges := by
  refine ⟨fun f => ⟨rfl, ?diff⟩, fun f => ⟨rfl, ?green⟩, fun f => ⟨rfl, ?side⟩, fun f g => ⟨rfl, ?combined⟩⟩
  case diff =>
    have := unbias_mem f standardConfig.diffBias
    simp only [diffDelta, standardConfig] at *
    omega
  case green =>
    have := unbias_mem f standardConfig.lumaGreenBias
    simp only [lumaGreenDelta, standardConfig] at *
    omega
  case side =>
    have := unbias_mem f standardConfig.lumaRedBlueBias
    simp only [standardConfig] at *
    omega
  case combined =>
    have := unbias_mem f standardConfig.lumaGreenBias
    have := unbias_mem g standardConfig.lumaRedBlueBias
    simp only [lumaSideDelta, lumaGreenDelta, standardConfig] at *
    omega

/-- Settles O1: the decoder, run on the eight byte strings. -/
theorem bitPatternsDecode : Obligations.BitPatternsDecode :=
  ⟨rfl, rfl, rfl, rfl, rfl, rfl, rfl, rfl⟩

/-- A decoded delta is an operand exactly in the range of its field less the bias (30_encoding.md R93, R100). -/
theorem asmDelta_eq (n bias : Nat) (d : Int) :
    asmDelta n bias d =
      if -(bias : Int) ≤ d ∧ d < 2 ^ n - bias then some (BitVec.ofNat n (d + bias).toNat) else none := by
  have hfits : (d + bias).toNat < 2 ^ n ↔ d < 2 ^ n - bias := by
    have hpos : (0 : Int) < 2 ^ n := by positivity
    zify
    omega
  simp only [asmDelta, asmField, hfits, ← ite_and]
  congr 1
  rw [neg_le_iff_add_nonneg]

/-- The record of an RGB line, when its operands are in range (30_encoding.md R100). -/
theorem assemble_rgb (c : Config) (r g b : Nat) :
    assemble c (.rgb r g b) =
      if r ≤ 255 ∧ g ≤ 255 ∧ b ≤ 255 then some (.rgb (BitVec.ofNat 8 r) (BitVec.ofNat 8 g) (BitVec.ofNat 8 b))
      else none := by
  simp only [assemble, asmField]
  grind

/-- The record of an RGBA line. -/
theorem assemble_rgba (c : Config) (r g b a : Nat) :
    assemble c (.rgba r g b a) =
      if r ≤ 255 ∧ g ≤ 255 ∧ b ≤ 255 ∧ a ≤ 255 then
        some (.rgba (BitVec.ofNat 8 r) (BitVec.ofNat 8 g) (BitVec.ofNat 8 b) (BitVec.ofNat 8 a))
      else none := by
  simp only [assemble, asmField]
  grind

/-- The record of an INDEX line. -/
theorem assemble_index (c : Config) (idx : Nat) :
    assemble c (.index idx) = if idx ≤ 63 then some (.index (BitVec.ofNat 6 idx)) else none := by
  simp only [assemble, asmField]
  grind

/-- The record of a DIFF line: the operands are deltas, the record's fields stored ones (30_encoding.md R93). -/
theorem assemble_diff (dr dg db : Int) :
    assemble standardConfig (.diff dr dg db) =
      if (-2 ≤ dr ∧ dr ≤ 1) ∧ (-2 ≤ dg ∧ dg ≤ 1) ∧ (-2 ≤ db ∧ db ≤ 1) then
        some (.diff (BitVec.ofNat 2 (dr + 2).toNat) (BitVec.ofNat 2 (dg + 2).toNat) (BitVec.ofNat 2 (db + 2).toNat))
      else none := by
  simp only [assemble, asmDelta_eq, standardConfig]
  grind

/-- The record of a LUMA line. -/
theorem assemble_luma (dg drDg dbDg : Int) :
    assemble standardConfig (.luma dg drDg dbDg) =
      if (-32 ≤ dg ∧ dg ≤ 31) ∧ (-8 ≤ drDg ∧ drDg ≤ 7) ∧ (-8 ≤ dbDg ∧ dbDg ≤ 7) then
        some (.luma (BitVec.ofNat 6 (dg + 32).toNat) (BitVec.ofNat 4 (drDg + 8).toNat) (BitVec.ofNat 4 (dbDg + 8).toNat))
      else none := by
  simp only [assemble, asmDelta_eq, standardConfig]
  grind

/-- The record of a RUN line, whose operand is the stored count. -/
theorem assemble_run (rl : Nat) :
    assemble standardConfig (.run rl) = if rl ≤ 61 then some (.run (BitVec.ofNat 6 rl)) else none := by
  simp only [assemble, asmField, standardConfig]
  grind

/-- The record of a `.header` line: every operand that fits its field (log 21). -/
theorem assemble_header (c : Config) (w h ch cs : Nat) :
    assemble c (.header w h ch cs) =
      if w < 2 ^ 32 ∧ h < 2 ^ 32 ∧ ch ≤ 255 ∧ cs ≤ 255 then
        some (.header c.magic (BitVec.ofNat 32 w) (BitVec.ofNat 32 h) (BitVec.ofNat 8 ch) (BitVec.ofNat 8 cs))
      else none := by
  simp only [assemble, asmField]
  grind

/-- The bytes of a line that stands for a record inside its ranges and for nothing outside them. -/
theorem map_encode_ite {c : Config} {line : Option Instr} {p : Prop} [Decidable p] {i : Instr} {bytes : List Byte}
    (hline : line = if p then some i else none) (hbytes : p → encode c i = bytes) :
    line.map (encode c) = if p then some bytes else none := by
  rw [hline]
  split
  case isTrue hp => simp [hbytes hp]
  case isFalse => rfl

/-- The big-endian bytes of a number are its quotients by the powers of 256 (20_memory.md R60). -/
theorem be32Bytes_ofNat (w : Nat) :
    be32Bytes (BitVec.ofNat 32 w) =
      [BitVec.ofNat 8 (w / 2 ^ 24), BitVec.ofNat 8 (w / 2 ^ 16), BitVec.ofNat 8 (w / 2 ^ 8), BitVec.ofNat 8 w] := by
  simp only [be32Bytes, List.cons.injEq, and_true, ← BitVec.toNat_inj, BitVec.extractLsb'_toNat, BitVec.toNat_ofNat,
    Nat.shiftRight_eq_div_pow]
  omega

/-- Settles O8: the record of each line is none outside the rule's ranges; inside them its tag, fields and biases add up to
the rule's bytes. -/
theorem assemblerLinesGiveTheirBytes : Obligations.AssemblerLinesGiveTheirBytes := by
  refine ⟨fun r g b => map_encode_ite (assemble_rgb ..) fun _ => rfl,
    fun r g b a => map_encode_ite (assemble_rgba ..) fun _ => rfl,
    fun idx => map_encode_ite (assemble_index ..) fun h => ?index,
    fun dr dg db => map_encode_ite (assemble_diff ..) fun h => ?diff,
    fun dg drDg dbDg => map_encode_ite (assemble_luma ..) fun h => ?luma,
    fun rl => map_encode_ite (assemble_run ..) fun h => ?run,
    fun w h ch cs => map_encode_ite (assemble_header ..) fun _ => ?header, rfl⟩
  case header =>
    simp only [encode, be32Bytes_ofNat]
    rfl
  all_goals simp only [encode, standardConfig, List.cons.injEq, and_true, ← BitVec.toNat_inj]
  case index =>
    rw [toNat_tagged (t := 0x00) rfl]
    simp only [BitVec.ofNat_eq_ofNat, BitVec.toNat_ofNat]
    omega
  case diff =>
    rw [toNat_tagged (t := 0x40) rfl]
    simp only [toNat_append_fields, BitVec.ofNat_eq_ofNat, BitVec.toNat_ofNat, BitVec.toNat_ofInt]
    omega
  case luma =>
    rw [toNat_tagged (t := 0x80) rfl]
    simp only [toNat_append_fields, BitVec.ofNat_eq_ofNat, BitVec.toNat_ofNat, BitVec.toNat_ofInt]
    omega
  case run =>
    rw [toNat_tagged (t := 0xC0) rfl]
    simp only [BitVec.ofNat_eq_ofNat, BitVec.toNat_ofNat]
    omega

end Sys2Proof.Machine
end

section
/-! The HEADER step (40_header.md R110 to R119): its checks in the machine's numbers, the error of the first that fails,
and what a header that passes latches. -/

namespace Sys2Proof.Machine

/-- An error taken is `phase` and `err` and nothing else of the step (60_exceptions.md R213). -/
theorem errorTaken_raise (e : FormatError) (s : State) : ErrorTaken s (raise e s) e where
  phase := raise_phase e s
  err := raise_err e s
  px := raise_px e s
  run := raise_run e s
  pos := raise_pos e s
  cache := raise_cache e s
  out := raise_out e s
  cursor := raise_p_of_ne e s
  header := by constructor <;> simp

/-- The checks in their order (40_header.md R120), each on the field's value as a number. -/
theorem headerError_eq (c : Config) (len : Nat) (m w h : Word) (ch : Byte) :
    headerError c len m w h ch =
      if ¬ c.hdrLen + c.padLen ≤ len then some .tooShort
      else if m ≠ c.magic then some .badMagic
      else if w.toNat = 0 then some .invalidWidth
      else if h.toNat = 0 ∨ c.pixelsMax / w.toNat ≤ h.toNat then some .invalidHeight
      else if ch ≠ 3 ∧ ch ≠ 4 then some .invalidChannels
      else none := by
  have zero_iff (v : Word) : v.toNat = 0 ↔ v = 0 := BitVec.toNat_inj (y := 0)
  simp only [headerError, Nat.not_le, zero_iff]

/-- `TooShort` is the error of the length check alone (40_header.md R113). -/
theorem headerError_eq_tooShort_iff {c : Config} {len : Nat} {m w h : Word} {ch : Byte} :
    headerError c len m w h ch = some .tooShort ↔ len < c.hdrLen + c.padLen := by
  rw [← Nat.not_le, headerError_eq]
  split_ifs with hlen <;> simp [hlen]

/-- A header that passes leaves a row's width of pixels below `PIXELS_MAX` (40_header.md R119). -/
theorem HeaderPasses.area_le {c : Config} {len : Nat} {m w h : Word} {ch : Byte} (hp : HeaderPasses c len m w h ch) :
    w.toNat * h.toNat ≤ c.pixelsMax - w.toNat := by
  have hrows : (h.toNat + 1) * w.toNat ≤ c.pixelsMax := (Nat.le_div_iff_mul_le hp.widthOk).1 hp.heightOk.2
  rw [Nat.succ_mul, Nat.mul_comm] at hrows
  omega

/-- The image of a header that passes has fewer than `2^32` bytes (40_header.md R119, 00_scope.md R8 e). -/
theorem HeaderPasses.bytes_lt {c : Config} {len : Nat} {m w h : Word} {ch : Byte} (hp : HeaderPasses c len m w h ch)
    (hc : c.Wf) : w.toNat * h.toNat * ch.toNat < 2 ^ 32 := by
  have harea := hp.area_lt
  have hmax := hc.pixelsMaxSmall
  have hch : ch.toNat ≤ 4 := by obtain rfl | rfl := hp.channelsOk <;> decide
  calc
    w.toNat * h.toNat * ch.toNat ≤ w.toNat * h.toNat * 4 := Nat.mul_le_mul_left _ hch
    _ < 2 ^ 32 := by omega

/-- No output byte is written when the pixels begin (10_state.md R44). -/
theorem outByte_latchHeader (w h : Word) (ch cs : Byte) (s : State) (a : Nat) :
    (latchHeader w h ch cs s).outByte a = none := by
  simp [State.outByte, Memory.read]

/-- Settles O27: no check fails, so the header is latched; the bounds are those the height check puts on the area. -/
theorem passingHeaderStartsThePixels : Obligations.PassingHeaderStartsThePixels := by
  intro s m w h ch cs hc hphase hp
  have harea := hp.toNat_area hc
  refine ⟨latchHeader w h ch cs s, execHeader_pass cs hphase (headerError_eq_none_iff.2 hp), rfl, rfl, rfl, rfl, rfl,
    harea, ?_, ?_, ?_, rfl, rfl, rfl, latchHeader_p_eq w h ch cs hc, fun i => ?_, ⟨_, rfl, ?_⟩,
    outByte_latchHeader w h ch cs s, rfl, rfl, rfl, rfl, rfl⟩
  · exact harea.trans_le hp.area_le
  · exact harea.trans_lt hp.area_lt
  · rw [latchHeader_npx, harea]; exact hp.bytes_lt hc
  · rw [latchHeader_cache, cacheGet_replicate, cacheSeed_eq]
  · rw [harea]

/-- Settles O28: each clause decides the checks up to the one that fails, and its error is taken. -/
theorem headerReportsItsFirstFailingCheck : Obligations.HeaderReportsItsFirstFailingCheck := by
  intro s m w h ch cs hphase raises longEnough heightOk
  have raised {e : FormatError} (he : headerError s.cfg s.len m w h ch = some e) : raises e :=
    ⟨_, execHeader_fail cs hphase he, errorTaken_raise e s⟩
  rw [headerError_eq] at raised
  have hheight : h.toNat = 0 ∨ s.cfg.pixelsMax / w.toNat ≤ h.toNat ↔ ¬ heightOk := by simp only [heightOk]; omega
  refine ⟨fun hlen => raised ?_, fun hlen hm => raised ?_, fun hlen hm hw => raised ?_,
    fun hlen hm hw hh => raised ?_, fun hlen hm hw hh hch => raised ?_⟩
  · exact if_pos hlen
  · rw [if_neg (not_not.2 hlen), if_pos hm]
  · rw [if_neg (not_not.2 hlen), if_neg (not_not.2 hm), if_pos hw]
  · rw [if_neg (not_not.2 hlen), if_neg (not_not.2 hm), if_neg hw, if_pos (hheight.2 hh)]
  · rw [if_neg (not_not.2 hlen), if_neg (not_not.2 hm), if_neg hw, if_neg (mt hheight.1 (not_not.2 hh)),
      if_pos hch]

/-- With the standard `PIXELS_MAX`, and the other checks passed, the height check decides (40_header.md R116). -/
theorem headerError_standardConfig {w : Word} (hw : 1 ≤ w.toNat) (h : Word) :
    headerError standardConfig 22 standardConfig.magic w h 3 =
      if h.toNat = 0 ∨ 400000000 / w.toNat ≤ h.toNat then some .invalidHeight else none := by
  rw [headerError_eq, if_neg (by decide), if_neg (by decide), if_neg (by omega), if_neg (c := _ ∧ _) (by decide)]
  rfl

/-- The heights that pass at a width: those below its quotient of `PIXELS_MAX` (40_header.md R116). -/
theorem headerError_standardConfig_eq_none_iff {w : Word} {n : Nat} (hw : 1 ≤ w.toNat)
    (hn : 400000000 / w.toNat = n + 1) (h : Word) :
    headerError standardConfig 22 standardConfig.magic w h 3 = none ↔ 1 ≤ h.toNat ∧ h.toNat ≤ n := by
  rw [headerError_standardConfig hw, hn, ite_eq_right_iff]
  simp only [reduceCtorEq, imp_false]
  omega

/-- Settles O29: each row of the table is the quotient at its width; from width 200000001 on the quotient is 1 or 0 and
no height passes. -/
theorem heightBoundTable : Obligations.HeightBoundTable := by
  intro h answer passes
  have row {w : Word} {n : Nat} (hw : 1 ≤ w.toNat) (hn : 400000000 / w.toNat = n + 1) :
      passes w ↔ 1 ≤ h.toNat ∧ h.toNat ≤ n := headerError_standardConfig_eq_none_iff hw hn h
  refine ⟨fun w hw => headerError_standardConfig hw h, row (by decide) rfl, row (by decide) rfl, row (by decide) rfl,
    row (by decide) rfl, row (by decide) rfl, row (by decide) rfl, (row (n := 1) (by decide) rfl).trans (by omega),
    fun w hw => ?wide⟩
  case wide =>
    have hquotient : 400000000 / w.toNat < 2 := Nat.div_lt_of_lt_mul (by omega)
    exact (headerError_standardConfig (by omega) h).trans (if_pos (by omega))

/-- Settles O30: a stream that holds no header record is shorter still; with one, the length check decides. -/
theorem shortStreamIsTooShort : Obligations.ShortStreamIsTooShort := by
  refine ⟨rfl, fun s hcmd hphase => ⟨fun hlen => ?short, fun hc hlen herr => ?long⟩⟩
  case short =>
    refine ⟨_, ?_, errorTaken_raise .tooShort s⟩
    obtain ⟨m, w, h, ch, cs, rest, -, hstep⟩ | ⟨-, hstep⟩ := step_header hcmd hphase
    · rw [hstep, execHeader_fail cs hphase (headerError_eq_tooShort_iff.2 hlen)]
    · exact hstep
  case long =>
    obtain ⟨m, w, h, ch, cs, rest, -, hstep⟩ | ⟨hcut, -⟩ := step_header hcmd hphase
    · cases he : headerError s.cfg s.len m w h ch with
      | none => exact ⟨_, hstep.trans (execHeader_pass cs hphase he), by simp [herr]⟩
      | some e =>
        refine ⟨_, hstep.trans (execHeader_fail cs hphase he), ?_⟩
        intro heq
        rw [raise_err, ← he, headerError_eq_tooShort_iff] at heq
        omega
    · have := hc.headerLength
      omega

end Sys2Proof.Machine
end

section
/-! How many stream bytes the whole decode reads (41_pixel_step.md R143): a pixel never gives bytes back, the first one
takes at least its opcode byte, and the trailer needs its padding after them. -/

namespace Sys2Proof.Machine

/-- A pixel reads a chunk or, with a run pending, nothing (41_pixel_step.md R131). -/
theorem loopPixel_ok {c : Config} {l l' : PixelLoop} (h : loopPixel c l = .ok l') :
    (l.run = 0 ∧ l'.rest.length < l.rest.length) ∨ (l.run ≠ 0 ∧ l'.rest = l.rest) := by
  unfold loopPixel at h
  split at h
  case isTrue hrun =>
    split at h
    · cases h
    · rename_i i rest hd
      cases h
      obtain ⟨hchunk, hlen, rfl⟩ := decodeChunk_ok hd
      have := (length_chunk hchunk).1
      refine .inl ⟨hrun, ?_⟩
      simp only [List.length_drop]
      omega
  case isFalse hrun => cases h; exact .inr ⟨hrun, rfl⟩

/-- A pixel gives no byte back. -/
theorem length_rest_loopPixel_le {c : Config} {l l' : PixelLoop} (h : loopPixel c l = .ok l') :
    l'.rest.length ≤ l.rest.length := by
  obtain ⟨-, hlt⟩ | ⟨-, heq⟩ := loopPixel_ok h
  · exact hlt.le
  · rw [heq]

/-- Pixels that complete begin with one that completes. -/
theorem loopPixels_succ_ok {c : Config} {n : Nat} {l l'' : PixelLoop} {ps : List Pixel}
    (h : loopPixels c (n + 1) l = .ok (ps, l'')) :
    ∃ l' qs, loopPixel c l = .ok l' ∧ loopPixels c n l' = .ok (qs, l'') ∧ ps = l'.px :: qs := by
  unfold loopPixels at h
  split at h
  · cases h
  · rename_i l' hfirst
    split at h
    · cases h
    · rename_i qs _ hothers
      cases h
      exact ⟨l', qs, hfirst, hothers, rfl⟩

/-- Any number of pixels gives no byte back. -/
theorem length_rest_loopPixels_le {c : Config} {n : Nat} {l l' : PixelLoop} {ps : List Pixel}
    (h : loopPixels c n l = .ok (ps, l')) : l'.rest.length ≤ l.rest.length := by
  induction n generalizing l ps with
  | zero => cases h; exact Nat.le_refl _
  | succ n ih =>
    obtain ⟨l₁, qs, hfirst, hothers, -⟩ := loopPixels_succ_ok h
    exact (ih hothers).trans (length_rest_loopPixel_le hfirst)

/-- Without a run pending, one pixel or more takes at least one byte (40_header.md R121). -/
theorem length_rest_loopPixels_lt {c : Config} {n : Nat} {l l' : PixelLoop} {ps : List Pixel} (hrun : l.run = 0)
    (hn : n ≠ 0) (h : loopPixels c n l = .ok (ps, l')) : l'.rest.length < l.rest.length := by
  obtain ⟨n, rfl⟩ := Nat.exists_eq_succ_of_ne_zero hn
  obtain ⟨l₁, qs, hfirst, hothers, -⟩ := loopPixels_succ_ok h
  obtain ⟨-, hlt⟩ | ⟨hpending, -⟩ := loopPixel_ok hfirst
  · exact (length_rest_loopPixels_le hothers).trans_lt hlt
  · exact absurd hrun hpending

/-- A trailer that passes has its padding inside the stream (46_trailer.md R202). -/
theorem padding_le_of_trailerError {c : Config} {p len : Nat} {pad : List Byte}
    (h : trailerError c p len pad = none) : p + c.padLen ≤ len := by
  unfold trailerError at h
  split at h
  · cases h
  · omega

/-- A decode that succeeds read a header that passes, all its pixels and a trailer that passes
(41_pixel_step.md R143). -/
theorem wholeDecode_ok {c : Config} {stream : List Byte} {img : Image} (h : wholeDecode c stream = .ok img) :
    ∃ m w ht ch cs rest ps l, decodeHeader stream = .ok (.header m w ht ch cs, rest) ∧
      HeaderPasses c stream.length m w ht ch ∧
      loopPixels c (w.toNat * ht.toNat) (loopStart c ch rest) = .ok (ps, l) ∧
      trailerError c (stream.length - l.rest.length) stream.length (l.rest.take c.padLen) = none ∧
      img = ⟨w, ht, ch, cs, ps.flatMap (pixelBytes ch)⟩ := by
  unfold wholeDecode at h
  split at h
  case h_2 => cases h
  case h_1 m w ht ch cs rest hheader =>
    split at h
    · cases h
    · rename_i hchecks
      split at h
      · cases h
      · rename_i ps l hpixels
        split at h
        · cases h
        · rename_i htrailer
          cases h
          exact ⟨m, w, ht, ch, cs, rest, ps, l, hheader, headerError_eq_none_iff.1 hchecks, hpixels, htrailer, rfl⟩

/-- A stream that decodes has a byte of pixels besides header and padding (40_header.md R121). -/
theorem length_of_wholeDecode_ok {c : Config} (hc : c.Wf) {stream : List Byte} {img : Image}
    (h : wholeDecode c stream = .ok img) : c.hdrLen + c.padLen < stream.length := by
  obtain ⟨m, w, ht, ch, cs, rest, ps, l, hheader, hpasses, hpixels, htrailer, -⟩ := wholeDecode_ok h
  obtain ⟨-, hlen, rfl⟩ := decodeHeader_ok hheader
  have hread := length_rest_loopPixels_lt rfl (Nat.mul_pos hpasses.widthOk hpasses.heightOk.1).ne' hpixels
  have hpadding := padding_le_of_trailerError htrailer
  have hheaderLength := hc.headerLength
  simp only [loopStart, List.length_drop] at hread
  omega

/-- Settles O33: a stream that decodes is longer than header and padding, which are 22 bytes. -/
theorem noStreamOf22BytesDecodes : Obligations.NoStreamOf22BytesDecodes := by
  intro stream hlen
  cases h : wholeDecode standardConfig stream with
  | error e => exact ⟨e, rfl⟩
  | ok img => exact absurd (length_of_wholeDecode_ok wf_standardConfig h) (Nat.not_lt.2 hlen)

end Sys2Proof.Machine
end

section
/-! A decoder step by what it fetches (41_pixel_step.md R134), and how the meaning of TRAILER completes. -/

namespace Sys2Proof.Machine

/-- A record fetched is executed (00_scope.md R12). -/
theorem step_of_record {s : State} {i : Instr} (hc : s.cmd = none) (hf : fetch s = .record i) : step s = exec i s := by
  simp [step, hc, hf]

/-- A run found pending is carried over (45_run.md R193). -/
theorem step_of_carryOver {s : State} (hc : s.cmd = none) (hf : fetch s = .carryOver) : step s = carryOver s := by
  simp [step, hc, hf]

/-- A record whose bytes are missing is its error taken. -/
theorem step_of_failed {s : State} {e : FormatError} (hc : s.cmd = none) (hf : fetch s = .failed e) :
    step s = .next (raise e s) := by
  simp [step, hc, hf]

/-- The meaning of TRAILER completes in phase TRAILER only, as its first failing check's error or in DONE. -/
theorem execTrailer_next {pad : List Byte} {s t : State} (h : execTrailer pad s = .next t) :
    s.phase = .trailer ∧ ((∃ e, trailerError s.cfg s.p.toNat s.len pad = some e ∧ t = raise e s) ∨
      (trailerError s.cfg s.p.toNat s.len pad = none ∧ t = { s with phase := .done })) := by
  have hp : s.phase = .trailer := by
    by_contra hne
    simp [execTrailer, hne] at h
  refine ⟨hp, ?_⟩
  cases he : trailerError s.cfg s.p.toNat s.len pad with
  | some e => rw [execTrailer_fail hp he] at h; cases h; exact .inl ⟨e, rfl, rfl⟩
  | none => rw [execTrailer_pass hp he] at h; cases h; exact .inr ⟨rfl, rfl⟩

end Sys2Proof.Machine
end

section
/-! The colour space changes nothing in the decode (40_header.md R118, 10_state.md R37): what each operation of a pixel
or trailer step makes of a state is what it makes of that state with another colour space. -/

namespace Sys2Proof.Machine

/-- An error taken keeps the colour space and does not read it. -/
theorem raise_colorspace_congr (e : FormatError) (s : State) (cs : Byte) :
    raise e { s with colorspace := cs } = { raise e s with colorspace := cs } := by
  unfold raise
  split <;> rfl

/-- A pixel's commit does not read the colour space. -/
theorem commitPixel_colorspace_congr {s t : State} {q : Pixel} {run : BitVec 6} {n : Nat} (cs : Byte)
    (h : commitPixel s q run n = .next t) :
    commitPixel { s with colorspace := cs } q run n = .next { t with colorspace := cs } := by
  obtain ⟨b, hb, hfit, rfl⟩ := commitPixel_next h
  exact commitPixel_of_room (s := { s with colorspace := cs }) q run n hb hfit

/-- The step of a chunk does not read the colour space. -/
theorem chunkStep_colorspace_congr {s t : State} {q : Pixel} {run : BitVec 6} {n : Nat} (cs : Byte)
    (h : chunkStep s n q run = .next t) :
    chunkStep { s with colorspace := cs } n q run = .next { t with colorspace := cs } := by
  obtain ⟨hp, ⟨hlen, rfl⟩ | ⟨hlen, hcommit⟩⟩ := chunkStep_next h
  · rw [chunkStep_of_cut (s := { s with colorspace := cs }) q run hp hlen, raise_colorspace_congr]
  · rw [chunkStep_of_bytes (s := { s with colorspace := cs }) q run hp hlen, commitPixel_colorspace_congr cs hcommit]

/-- The meaning of TRAILER does not read the colour space. -/
theorem execTrailer_colorspace_congr {s t : State} {pad : List Byte} (cs : Byte) (h : execTrailer pad s = .next t) :
    execTrailer pad { s with colorspace := cs } = .next { t with colorspace := cs } := by
  obtain ⟨hp, ⟨e, he, rfl⟩ | ⟨he, rfl⟩⟩ := execTrailer_next h
  · rw [execTrailer_fail (s := { s with colorspace := cs }) hp he, raise_colorspace_congr]
  · exact execTrailer_pass (s := { s with colorspace := cs }) hp he

/-- No meaning but HEADER's reads or writes the colour space. -/
theorem exec_colorspace_congr {s t : State} {i : Instr} (cs : Byte) (hi : i.recordKind ≠ .header)
    (h : exec i s = .next t) : exec i { s with colorspace := cs } = .next { t with colorspace := cs } := by
  cases hk : i.recordKind with
  | header => exact absurd hk hi
  | chunk =>
    rw [exec_chunk hk] at h ⊢
    exact chunkStep_colorspace_congr cs h
  | trailer =>
    cases i with
    | trailer pad => exact execTrailer_colorspace_congr cs h
    | _ => cases hk

/-- The checks do not see the colour space: a HEADER step differs in the latched value alone (40_header.md R118). -/
theorem execHeader_colorspace_congr {s t : State} {m w h : Word} {ch cs : Byte} (cs' : Byte)
    (hx : execHeader m w h ch cs s = .next t) :
    (t.phase ≠ .error → t.colorspace = cs ∧ execHeader m w h ch cs' s = .next { t with colorspace := cs' }) ∧
      (t.phase = .error → execHeader m w h ch cs' s = .next t) := by
  obtain ⟨hp, ⟨e, he, rfl⟩ | ⟨he, rfl⟩⟩ := execHeader_next hx
  · exact ⟨fun hne => absurd (raise_phase e s) hne, fun _ => execHeader_fail cs' hp he⟩
  · exact ⟨fun _ => ⟨rfl, execHeader_pass cs' hp he⟩, fun herr => by cases herr⟩

/-- A step outside HEADER does not read the colour space: it fetches the same record and executes it alike. -/
theorem step_colorspace_congr {s t : State} (cs : Byte) (hc : s.cmd = none) (hp : s.phase ≠ .header)
    (h : step s = .next t) : step { s with colorspace := cs } = .next { t with colorspace := cs } := by
  have hfetch : fetch { s with colorspace := cs } = fetch s := rfl
  cases hf : fetch s with
  | record i =>
    have hi : i.recordKind ≠ .header := fun hk => hp (by rw [phase_of_fetch_record hf, hk, enabledPhase])
    rw [step_of_record hc hf] at h
    exact (step_of_record (s := { s with colorspace := cs }) hc (hfetch.trans hf)).trans (exec_colorspace_congr cs hi h)
  | carryOver =>
    rw [step_of_carryOver hc hf] at h
    exact (step_of_carryOver (s := { s with colorspace := cs }) hc (hfetch.trans hf)).trans
      (commitPixel_colorspace_congr cs h)
  | failed e =>
    rw [step_of_failed hc hf] at h
    cases h
    rw [step_of_failed (s := { s with colorspace := cs }) hc (hfetch.trans hf), raise_colorspace_congr]
  | halted => simp [step, hc, hf] at h

/-- Settles O49: HEADER latches the byte and does not check it; no other step reads it. -/
theorem colourSpaceChangesNothing : Obligations.ColourSpaceChangesNothing :=
  ⟨fun _ _ _ _ _ _ _ cs' hx => execHeader_colorspace_congr cs' hx,
    fun _ _ cs hc hp h => step_colorspace_congr cs hc hp h⟩

end Sys2Proof.Machine
end

section
/-! A pixel step in full: what committing a pixel changes and leaves (41_pixel_step.md R137 to R139), and what the pixel
depends on (R135). -/

namespace Sys2Proof.Machine

/-- The end of the pixels by the position's value (41_pixel_step.md R139). -/
theorem phaseAfterPixel_eq_ite {pos npx : Word} (h : pos.toNat < npx.toNat) :
    phaseAfterPixel pos npx = if pos.toNat + 1 = npx.toNat then .trailer else .pixels := by
  simp only [phaseAfterPixel, ← BitVec.toNat_inj, toNat_pos_succ h]

/-- Committing a pixel of `n` bytes that the stream holds is all that the rules of a pixel step ask for
(41_pixel_step.md R137 to R139), and nothing else. -/
theorem pixelProduced_afterPixel {s : State} {q : Pixel} {run : BitVec 6} {n : Nat} {b : OutBuffer} (h : s.CanProduce)
    (hn : s.p.toNat + n ≤ s.len) (hb : s.out = some b) :
    PixelProduced s (s.afterPixel q run n (s.writePixel q b)) q run n where
  px := rfl
  run := rfl
  cursor := toNat_cursor_add h.len (by omega) (by omega)
  position := toNat_pos_succ h.pos
  slot := cacheGet_cacheUpdate_self ..
  otherSlots _ hi := cacheGet_cacheUpdate_of_ne _ _ _ hi
  bytes k hk := by
    simpa [State.outByte, State.writePixel] using
      Memory.read_writeBytes b.mem _ (pixelBytes s.channels q) k (by simpa)
  otherBytes a ha := by
    simpa [State.outByte, State.writePixel, hb] using
      Memory.read_writeBytes_of_outside b.mem _ (pixelBytes s.channels q) (by simpa using ha)
  size := by simp [State.writePixel, hb]
  phase := phaseAfterPixel_eq_ite h.pos
  err := rfl
  draws := rfl
  header := by constructor <;> rfl

/-- Under the invariant the bytes a pixel step reads lie inside the stream (41_pixel_step.md R132). -/
theorem State.Inv.cursor_add_le {s : State} (h : s.Inv) (hp : s.phase = .pixels) {q : Pixel} {run : BitVec 6} {n : Nat}
    (hsrc : PixelSource s q run n) : s.p.toNat + n ≤ s.len := by
  have := (h.latched (.inl hp)).cursor.2
  have := hsrc.length_le
  omega

/-- Under the invariant the output buffer has the bytes of the next pixel (20_memory.md R56). -/
theorem State.Inv.canProduce {s : State} (h : s.Inv) (hp : s.phase = .pixels) : s.CanProduce where
  phase := hp
  len := h.len
  pos := h.before hp
  room := by
    have hl := h.latched (.inl hp)
    obtain ⟨b, hb, hsize, -⟩ := hl.out
    refine ⟨b, hb, ?_⟩
    calc
      s.pos.toNat * stride s.channels + stride s.channels = (s.pos.toNat + 1) * stride s.channels :=
        (Nat.succ_mul ..).symm
      _ ≤ s.npx.toNat * stride s.channels := Nat.mul_le_mul_right _ (h.before hp)
      _ = b.len := by rw [hsize, stride_eq _ hl.channels]

/-- Settles O21: a step of phase PIXELS that raises nothing is a pixel committed. -/
theorem everyPixelStepCommitsItsPixel : Obligations.EveryPixelStepCommitsItsPixel := by
  intro s t h hc hp hstep hne
  cases decoderStep_of_step hc hstep with
  | raised => simp at hne
  | header cs hheader => simp [hp] at hheader
  | trailer htrailer => simp [hp] at htrailer
  | pixel _ hsrc hb => exact ⟨_, pixelProduced_afterPixel (h.canProduce hp) (h.cursor_add_le hp hsrc) hb⟩

/-- A chunk that raises nothing leaves the pixel and the run counter of its effect (41_pixel_step.md R135). -/
theorem effect_of_exec_chunk {i : Instr} {s t : State} (hi : i.recordKind = .chunk) (h : exec i s = .next t)
    (hne : t.phase ≠ .error) : (t.px, t.run) = chunkEffect s.cfg s.px s.cache i := by
  rw [exec_chunk hi] at h
  obtain ⟨-, ⟨-, rfl⟩ | ⟨-, hcommit⟩⟩ := chunkStep_next h
  · simp at hne
  · obtain ⟨b, -, -, rfl⟩ := commitPixel_next hcommit
    rfl

/-- INDEX alone reads the cache (41_pixel_step.md R135). -/
theorem chunkEffect_cache_congr {i : Instr} (c : Config) (old : Pixel) {cache cache' : Vector Pixel 64}
    (h : ∀ idx, i = .index idx → cache = cache') : chunkEffect c old cache i = chunkEffect c old cache' i := by
  cases i with
  | index idx => rw [h idx rfl]
  | _ => rfl

/-- Settles O22: the pixel and the run are the chunk's effect, a function of the parameters, the old pixel and, for
INDEX, the cache. -/
theorem chunkMeaningIgnoresModeAndPosition : Obligations.ChunkMeaningIgnoresModeAndPosition := by
  intro i s s' t t' hi hcfg hpx hcache h h' hne hne'
  rw [← Prod.mk.injEq]
  calc
    (t.px, t.run) = chunkEffect s.cfg s.px s.cache i := effect_of_exec_chunk hi h hne
    _ = chunkEffect s'.cfg s'.px s'.cache i := by rw [hcfg, hpx, chunkEffect_cache_congr _ _ hcache]
    _ = (t'.px, t'.run) := (effect_of_exec_chunk hi h' hne').symm

end Sys2Proof.Machine
end

section
/-! The record a decoder step runs, phase by phase (00_scope.md R12). -/

namespace Sys2Proof.Machine

/-- A step that fetches what was decoded executes the record, or takes the error of its missing bytes. -/
theorem step_of_ofDecoded {s : State} {d : Decoded} {e : FormatError} (hc : s.cmd = none)
    (hf : fetch s = .ofDecoded d) (he : ∀ e', d = .error e' → DecodeError.toFormatError e' = e) :
    (∀ i rest, d = .ok (i, rest) → step s = exec i s) ∧ ∀ e', d = .error e' → step s = .next (raise e s) := by
  refine ⟨fun i rest hd => ?record, fun e' hd => ?failed⟩
  case record => exact step_of_record hc (by rw [hf, hd, Fetched.ofDecoded])
  case failed => exact step_of_failed hc (by rw [hf, hd, Fetched.ofDecoded, he e' hd])

/-- Settles O38: each phase fetches its kind of record at its place, and each kind has one error of missing bytes. -/
theorem stepRunsTheDecodedRecord : Obligations.StepRunsTheDecodedRecord := by
  intro s hc
  refine ⟨fun hp => ?header, fun hp hr => ?chunk, step_carryOver hc, fun hp => ?trailer⟩
  case header =>
    refine step_of_ofDecoded hc (by simp only [fetch, hp]) fun e he => ?_
    rw [(decodeHeader_error he).1, DecodeError.toFormatError]
  case chunk =>
    refine step_of_ofDecoded hc (by simp only [fetch, hp, if_pos hr, State.fromCursor]) fun e he => ?_
    rw [decodeChunk_error he, DecodeError.toFormatError]
  case trailer =>
    refine step_of_ofDecoded hc (by simp only [fetch, hp, State.fromCursor]) fun e he => ?_
    rw [(decodeTrailer_error he).1, DecodeError.toFormatError]

end Sys2Proof.Machine
end

section
/-! The step machine against the whole decode (41_pixel_step.md R143): from each point of a decode, running the steps to
the end gives what the whole-decode function still gives from there. -/

namespace Sys2Proof.Machine

/-- Running the steps from here ends the decode with this result for the host (20_memory.md R58,
60_exceptions.md R214). -/
def State.EndsWith (s : State) (result : Except FormatError Image) : Prop :=
  ∃ k t, steps k s = .next t ∧ t.Over ∧ t.answer = some result

/-- What the steps end with from the next state on, they end with from this one. -/
theorem State.EndsWith.of_step {s t : State} {result : Except FormatError Image} (hstep : step s = .next t)
    (h : t.EndsWith result) : s.EndsWith result := by
  obtain ⟨k, u, hsteps, hend⟩ := h
  exact ⟨k + 1, u, by simpa only [steps, hstep] using hsteps, hend⟩

/-- An error taken ends the decode with that error (60_exceptions.md R213, R214). -/
theorem endsWith_error {s : State} {e : FormatError} (hstep : step s = .next (raise e s)) : s.EndsWith (.error e) :=
  .of_step hstep ⟨0, _, rfl, .inr (raise_phase e s), answer_of_error (raise_phase e s) (raise_err e s)⟩

/-- The output bytes written so far are these and no others, the bytes of the positions passed. -/
structure State.HasWritten (s : State) (bytes : List Byte) : Prop where
  length : bytes.length = s.pos.toNat * stride s.channels
  outByte : ∀ a, s.outByte a = bytes[a]?

/-- A pixel step appends its pixel's bytes to the output (41_pixel_step.md R138). -/
theorem PixelProduced.hasWritten {s t : State} {q : Pixel} {run : BitVec 6} {n : Nat} {bytes : List Byte}
    (h : PixelProduced s t q run n) (hw : s.HasWritten bytes) :
    t.HasWritten (bytes ++ pixelBytes s.channels q) where
  length := by
    rw [List.length_append, pixelBytes_length, hw.length, h.position, h.header.channels, Nat.succ_mul]
  outByte a := by
    have hlength := hw.length
    obtain hbelow | habove := Nat.lt_or_ge a bytes.length
    · rw [h.otherBytes a (.inl (by omega)), hw.outByte, List.getElem?_append_left hbelow]
    · obtain ⟨k, rfl⟩ := Nat.exists_eq_add_of_le habove
      rw [List.getElem?_append_right habove, Nat.add_sub_cancel_left]
      obtain hk | hk := Nat.lt_or_ge k (stride s.channels)
      · rw [hlength, h.bytes k hk]
      · rw [h.otherBytes _ (.inr (by omega)), hw.outByte, List.getElem?_eq_none (by omega),
          List.getElem?_eq_none (by simpa)]

/-- At DONE the result is the image of the bytes written. -/
theorem State.Inv.answer_of_hasWritten {s : State} (h : s.Inv) (hp : s.phase = .done) {bytes : List Byte}
    (hw : s.HasWritten bytes) : s.answer = some (.ok ⟨s.width, s.height, s.channels, s.colorspace, bytes⟩) := by
  obtain ⟨result, hanswer, hlength, hresult⟩ := h.answer_done hp
  rw [hanswer]
  obtain rfl : result = bytes := by
    refine List.ext_getElem? fun a => ?_
    obtain ha | ha := Nat.lt_or_ge a result.length
    · rw [hresult a ha, hw.outByte]
    · rw [← h.after (.inr hp), ← stride_eq _ (h.latched (.inr (.inr hp))).channels, ← hw.length] at hlength
      rw [List.getElem?_eq_none ha, List.getElem?_eq_none (by omega)]
  rfl

/-- The registers the pixels thread through, and the bytes not yet read (10_state.md R20). -/
def State.loop (s : State) : PixelLoop where
  px := s.px
  run := s.run
  cache := s.cache
  rest := s.fromCursor

/-- What the whole-decode function still gives from a point after the header: the pixels left, and the trailer
(41_pixel_step.md R143). -/
def State.restOfDecode (s : State) (bytes : List Byte) : Except FormatError Image :=
  match loopPixels s.cfg (s.npx.toNat - s.pos.toNat) s.loop with
  | .error e => .error e
  | .ok (ps, l) =>
    match trailerError s.cfg (s.len - l.rest.length) s.len (l.rest.take s.cfg.padLen) with
    | some e => .error e
    | none => .ok ⟨s.width, s.height, s.channels, s.colorspace, bytes ++ ps.flatMap (pixelBytes s.channels)⟩

/-! ### TRAILER -/

/-- The cursor is what has been read of the stream. -/
theorem State.len_sub_length_fromCursor {s : State} (h : s.p.toNat ≤ s.len) :
    s.len - s.fromCursor.length = s.p.toNat := by
  have : s.fromCursor.length = s.len - s.p.toNat := List.length_drop
  omega

/-- With no pixel left, the rest of the decode is the trailer's checks at the cursor (46_trailer.md R201). -/
theorem restOfDecode_of_trailer {s : State} (h : s.Inv) (hp : s.phase = .trailer) (bytes : List Byte)
    {check : Option FormatError} (he : trailerError s.cfg s.p.toNat s.len (s.fromCursor.take s.cfg.padLen) = check) :
    s.restOfDecode bytes =
      check.elim (.ok ⟨s.width, s.height, s.channels, s.colorspace, bytes⟩) .error := by
  have hcursor := State.len_sub_length_fromCursor (h.latched (.inr (.inl hp))).cursor.2
  have hleft : s.npx.toNat - s.pos.toNat = 0 := by rw [h.after (.inl hp), Nat.sub_self]
  cases check <;> simp [State.restOfDecode, hleft, loopPixels, State.loop, hcursor, he]

/-- A trailer whose bytes are missing is one whose first check fails: the step is the meaning of TRAILER in either case
(46_trailer.md R202). -/
theorem step_eq_execTrailer {s : State} (hc : s.cmd = none) (hp : s.phase = .trailer) :
    step s = execTrailer (s.fromCursor.take s.cfg.padLen) s := by
  obtain ⟨-, hstep⟩ | ⟨hcut, hstep⟩ := step_trailer hc hp
  · exact hstep
  · have herror : trailerError s.cfg s.p.toNat s.len (s.fromCursor.take s.cfg.padLen) = some .truncated := by
      rw [State.fromCursor, List.length_drop] at hcut
      exact if_pos (by simp only [State.len]; omega)
    rw [hstep, execTrailer_fail hp herror]

/-- From TRAILER the step ends the decode as the trailer's checks decide. -/
theorem endsWith_of_trailer {s : State} {bytes : List Byte} (h : s.Inv) (hc : s.cmd = none) (hp : s.phase = .trailer)
    (hw : s.HasWritten bytes) : s.EndsWith (s.restOfDecode bytes) := by
  have hstep := step_eq_execTrailer hc hp
  cases he : trailerError s.cfg s.p.toNat s.len (s.fromCursor.take s.cfg.padLen) with
  | some e =>
    rw [restOfDecode_of_trailer h hp bytes he]
    exact endsWith_error (hstep.trans (execTrailer_fail hp he))
  | none =>
    rw [restOfDecode_of_trailer h hp bytes he]
    refine .of_step (hstep.trans (execTrailer_pass hp he)) ⟨0, _, rfl, .inl rfl, ?_⟩
    exact (inv_done h hp).answer_of_hasWritten rfl ⟨hw.length, hw.outByte⟩

/-! ### PIXELS -/

/-- A pixel of the loop comes from where the machine's pixel step takes it (41_pixel_step.md R131). -/
theorem pixelSource_of_loopPixel {s : State} {l : PixelLoop} (h : loopPixel s.cfg s.loop = .ok l) :
    ∃ n, PixelSource s l.px l.run n ∧ l.cache = cacheUpdate s.cfg s.cache l.px ∧ l.rest = s.fromCursor.drop n := by
  unfold loopPixel at h
  split at h
  case isTrue hrun =>
    split at h
    · cases h
    · rename_i i rest hd
      cases h
      exact ⟨_, .inl ⟨hrun, i, rest, hd, rfl, rfl⟩, rfl, (decodeChunk_ok hd).2.2⟩
  case isFalse hrun =>
    cases h
    exact ⟨0, .inr ⟨hrun, rfl, rfl, rfl⟩, rfl, rfl⟩

/-- The loop's one error is a chunk cut short, and the step takes it (41_pixel_step.md R132). -/
theorem step_of_loopPixel_error {s : State} {e : FormatError} (hc : s.cmd = none) (hp : s.phase = .pixels)
    (h : loopPixel s.cfg s.loop = .error e) : step s = .next (raise e s) := by
  unfold loopPixel at h
  split at h
  case isTrue hrun =>
    split at h
    · rename_i e' hd
      cases h
      obtain ⟨-, chunk, -⟩ := stepRunsTheDecodedRecord s hc
      exact (chunk hp hrun).2 e' hd
    · cases h
  case isFalse => cases h

/-- A pixel step whose bytes and output bytes exist commits its pixel (41_pixel_step.md R131). -/
theorem step_of_pixelSource {s : State} {q : Pixel} {run : BitVec 6} {n : Nat} {b : OutBuffer} (hc : s.cmd = none)
    (hp : s.phase = .pixels) (hsrc : PixelSource s q run n) (hn : s.p.toNat + n ≤ s.len) (hb : s.out = some b)
    (hroom : s.pos.toNat * stride s.channels + stride s.channels ≤ b.len) :
    step s = .next (s.afterPixel q run n (s.writePixel q b)) := by
  suffices hcommit : step s = commitPixel s q run n from hcommit.trans (commitPixel_of_room q run n hb hroom)
  obtain ⟨-, chunk, carry, -⟩ := stepRunsTheDecodedRecord s hc
  obtain ⟨hr, i, rest, hd, rfl, heffect⟩ | ⟨hr, rfl, rfl, rfl⟩ := hsrc
  · obtain ⟨rfl, rfl⟩ := Prod.ext_iff.1 heffect
    rw [(chunk hp hr).1 i rest hd, exec_chunk (decodeChunk_ok hd).1, chunkStep_of_bytes _ _ hp hn]
  · exact carry hp hr

/-- One pixel of the loop is one step of the machine. -/
theorem step_of_loopPixel_ok {s : State} {l : PixelLoop} (h : s.Inv) (hc : s.cmd = none) (hp : s.phase = .pixels)
    (hl : loopPixel s.cfg s.loop = .ok l) :
    ∃ t n, step s = .next t ∧ PixelProduced s t l.px l.run n ∧ t.loop = l := by
  obtain ⟨n, hsrc, hcache, hrest⟩ := pixelSource_of_loopPixel hl
  have hcan := h.canProduce hp
  have hn := h.cursor_add_le hp hsrc
  obtain ⟨b, hb, hroom⟩ := hcan.room
  have hpixel := pixelProduced_afterPixel (q := l.px) (run := l.run) hcan hn hb
  refine ⟨_, n, step_of_pixelSource hc hp hsrc hn hb hroom, hpixel, ?_⟩
  have hfrom : (s.afterPixel l.px l.run n (s.writePixel l.px b)).fromCursor = l.rest := by
    rw [hrest, State.fromCursor, hpixel.cursor, ← List.drop_drop]
    rfl
  rw [State.loop, hfrom, State.afterPixel_cache, ← hcache]
  rfl

/-- The rest of the decode before a pixel that raises an error is that error. -/
theorem restOfDecode_of_loopPixel_error {s : State} {e : FormatError} (hpos : s.pos.toNat < s.npx.toNat)
    (h : loopPixel s.cfg s.loop = .error e) (bytes : List Byte) : s.restOfDecode bytes = .error e := by
  obtain ⟨n, hn⟩ : ∃ n, s.npx.toNat - s.pos.toNat = n + 1 := ⟨s.npx.toNat - s.pos.toNat - 1, by omega⟩
  simp [State.restOfDecode, hn, loopPixels, h]

/-- The rest of the decode before a pixel is the rest after it, with the pixel's bytes written. -/
theorem PixelProduced.restOfDecode_eq {s t : State} {l : PixelLoop} {run : BitVec 6} {n : Nat}
    (h : PixelProduced s t l.px run n) (hpos : s.pos.toNat < s.npx.toNat) (hl : loopPixel s.cfg s.loop = .ok l)
    (ht : t.loop = l) (bytes : List Byte) :
    s.restOfDecode bytes = t.restOfDecode (bytes ++ pixelBytes s.channels l.px) := by
  obtain ⟨hcfg, hstream, -, hwidth, hheight, hchannels, hcolorspace, hnpx⟩ := h.header
  have hleft : s.npx.toNat - s.pos.toNat = t.npx.toNat - t.pos.toNat + 1 := by rw [hnpx, h.position]; omega
  have hlen : t.len = s.len := congrArg List.length hstream
  simp only [State.restOfDecode, hleft, loopPixels, hl, ht, hcfg, hlen, hwidth, hheight, hchannels, hcolorspace]
  cases loopPixels s.cfg (t.npx.toNat - t.pos.toNat) l with
  | error e => rfl
  | ok d => simp [List.append_assoc]

/-- A pixel committed ends the pixels or goes on with one fewer to produce (41_pixel_step.md R139). -/
theorem PixelProduced.phase_or {s t : State} {q : Pixel} {run : BitVec 6} {n : Nat} (h : PixelProduced s t q run n) :
    t.phase = .pixels ∨ t.phase = .trailer := by
  rw [h.phase]
  split <;> simp

/-- From any point after the header, the steps end the decode with what the whole-decode function still gives: induction
on the pixels left. -/
theorem endsWith_restOfDecode {n : Nat} {s : State} {bytes : List Byte} (hn : s.npx.toNat - s.pos.toNat = n)
    (h : s.Inv) (hc : s.cmd = none) (hp : s.phase = .pixels ∨ s.phase = .trailer) (hw : s.HasWritten bytes) :
    s.EndsWith (s.restOfDecode bytes) := by
  induction n generalizing s bytes with
  | zero =>
    obtain hp | hp := hp
    · have := h.before hp
      omega
    · exact endsWith_of_trailer h hc hp hw
  | succ n ih =>
    obtain hp | hp := hp
    · have hpos := h.before hp
      cases hl : loopPixel s.cfg s.loop with
      | error e =>
        rw [restOfDecode_of_loopPixel_error hpos hl]
        exact endsWith_error (step_of_loopPixel_error hc hp hl)
      | ok l =>
        obtain ⟨t, _, hstep, hpixel, ht⟩ := step_of_loopPixel_ok h hc hp hl
        rw [hpixel.restOfDecode_eq hpos hl ht]
        exact .of_step hstep (ih (by rw [hpixel.header.npx, hpixel.position]; omega)
          ((decoderStep_of_step hc hstep).inv h) (hpixel.header.cmd.trans hc) hpixel.phase_or (hpixel.hasWritten hw))
    · have := h.after (.inl hp)
      omega

/-! ### Start and HEADER -/

/-- A start and a header that passes leave nothing of the state before, so that state may as well have been reset
(70_reset_and_hazards.md R252, R253). -/
theorem latchHeader_startStep_hardReset (stream : List Byte) (w h : Word) (ch cs : Byte) (s : State) :
    latchHeader w h ch cs (startStep stream s) = latchHeader w h ch cs (startStep stream (hardReset s)) :=
  latchHeader_startStep_congr (hardReset_cfg s).symm stream w h ch cs

/-- With the parameters of 00_scope.md R8, a start and a header that passes give the invariant, whatever stood there
before. -/
theorem inv_latchHeader_startStep {s : State} {stream : List Byte} {m w h : Word} {ch : Byte} (cs : Byte)
    (hc : s.cfg.Wf) (hlen : stream.length < 2 ^ 32) (hp : HeaderPasses s.cfg stream.length m w h ch) :
    (latchHeader w h ch cs (startStep stream s)).Inv := by
  rw [latchHeader_startStep_hardReset]
  exact inv_latchHeader cs (inv_startStep (inv_hardReset hc) hlen) rfl hp

/-- After a header that passes, the rest of the decode is all of it (41_pixel_step.md R143). -/
theorem wholeDecode_eq_restOfDecode {s : State} {stream rest : List Byte} {m w h : Word} {ch cs : Byte}
    (hc : s.cfg.Wf) (hd : decodeHeader stream = .ok (.header m w h ch cs, rest))
    (hp : HeaderPasses s.cfg stream.length m w h ch) :
    wholeDecode s.cfg stream = (latchHeader w h ch cs (startStep stream s)).restOfDecode [] := by
  have hloop : (latchHeader w h ch cs (startStep stream s)).loop = loopStart s.cfg ch rest := by
    obtain ⟨-, -, rfl⟩ := decodeHeader_ok hd
    rw [State.loop, State.fromCursor, latchHeader_p_eq w h ch cs (s := startStep stream s) hc]
    rfl
  simp [wholeDecode, State.restOfDecode, hd, headerError_eq_none_iff.2 hp, hloop, hp.toNat_area hc, State.len] <;> rfl

/-- From the start on, the steps end the decode with what the whole-decode function gives. -/
theorem endsWith_wholeDecode {s : State} {stream : List Byte} (hc : s.cfg.Wf) (hlen : stream.length < 2 ^ 32) :
    (startStep stream s).EndsWith (wholeDecode s.cfg stream) := by
  obtain ⟨m, w, h, ch, cs, rest, hd, hstep⟩ | ⟨hshort, hstep⟩ := step_header (s := startStep stream s) rfl rfl
  · rw [startStep_stream] at hd
    cases he : headerError s.cfg stream.length m w h ch with
    | some e =>
      have hwhole : wholeDecode s.cfg stream = .error e := by simp [wholeDecode, hd, he]
      rw [hwhole]
      exact endsWith_error (hstep.trans (execHeader_fail cs rfl he))
    | none =>
      have hp := headerError_eq_none_iff.1 he
      rw [wholeDecode_eq_restOfDecode hc hd hp]
      exact .of_step (hstep.trans (execHeader_pass cs rfl he))
        (endsWith_restOfDecode rfl (inv_latchHeader_startStep cs hc hlen hp) rfl (.inl rfl)
          ⟨by simp, fun a => outByte_latchHeader w h ch cs _ a⟩)
  · have hwhole : wholeDecode s.cfg stream = .error .tooShort := by
      cases hd : decodeHeader stream with
      | error e => simp [wholeDecode, hd]
      | ok d => exact absurd hshort (Nat.not_lt.2 (decodeHeader_ok hd).2.1)
    rw [hwhole]
    exact endsWith_error hstep

/-- A start that is allowed is taken (60_exceptions.md R230). -/
theorem step_present_start_of_allowed {s : State} {stream : List Byte} (hp : s.phase.canStart = true)
    (hlen : stream.length < 2 ^ 32) : step (s.present (.start stream)) = .next (startStep stream s) := by
  have hlong : ¬ 2 ^ 32 ≤ stream.length := Nat.not_le.2 hlen
  simp only [step, State.present_cmd, takeCommand, State.present_phase, hp, Bool.not_true, if_neg hlong]
  rfl

/-- Settles O58: the start is taken, and the HEADER, pixel and TRAILER steps end the decode as the whole-decode function
does. -/
theorem stepsComputeTheWholeDecode : Obligations.StepsComputeTheWholeDecode := by
  intro s stream hc hp hlen
  have hstart := step_present_start_of_allowed (Phase.canStart_iff.2 hp) hlen
  exact State.EndsWith.of_step hstart (endsWith_wholeDecode hc hlen)

end Sys2Proof.Machine
end

section
/-! The step of a chunk as a whole: what it produces where its bytes are there and what it takes where they are not
(41_pixel_step.md R131, R132, R136). -/

namespace Sys2Proof.Machine

/-- Where a pixel step is enabled and the chunk's bytes are there, the chunk produces the pixel of its effect
(41_pixel_step.md R131). -/
theorem exists_pixelProduced_of_chunk {i : Instr} {s : State} (hi : i.recordKind = .chunk) (h : s.CanProduce)
    (hn : s.p.toNat + i.length ≤ s.len) :
    ∃ t, exec i s = .next t ∧
      PixelProduced s t (chunkEffect s.cfg s.px s.cache i).1 (chunkEffect s.cfg s.px s.cache i).2 i.length := by
  obtain ⟨b, hb, hroom⟩ := h.room
  refine ⟨_, ?_, pixelProduced_afterPixel h hn hb⟩
  rw [exec_chunk hi, chunkStep_of_bytes _ _ h.phase hn]
  exact commitPixel_of_room _ _ _ hb hroom

/-- Where bytes of the chunk are missing, the chunk takes `Truncated` (41_pixel_step.md R132, R136). -/
theorem exists_errorTaken_of_chunk_cut {i : Instr} {s : State} (hi : i.recordKind = .chunk) (hp : s.phase = .pixels)
    (hn : s.len < s.p.toNat + i.length) : ∃ t, exec i s = .next t ∧ ErrorTaken s t .truncated :=
  ⟨raise .truncated s, by rw [exec_chunk hi, chunkStep_of_cut _ _ hp hn], errorTaken_raise .truncated s⟩

end Sys2Proof.Machine
end

section
/-! The literal chunks RGB and RGBA (42_literal.md R151, R152). -/

namespace Sys2Proof.Machine

/-- Settles O12: the RGB tag is the first one tested, and the step is the chunk's, whose effect keeps alpha. -/
theorem rgbSetsColourKeepsAlpha : Obligations.RgbSetsColourKeepsAlpha := by
  refine ⟨fun c r g b rest => ?decodes, fun s r g b h hn => ?completes, fun s r g b hp hn => ?cut⟩
  case decodes =>
    have hkind : chunkKind c c.tagRgb = .rgb := if_pos rfl
    exact decodeChunk_of_kind hkind (r :: g :: b :: rest)
  case completes => exact exists_pixelProduced_of_chunk (i := .rgb r g b) rfl h hn
  case cut => exact exists_errorTaken_of_chunk_cut rfl hp hn

/-- Settles O13: the RGBA tag opens its own kind, the two literal tags being distinct, and the step is the chunk's, whose
effect takes alpha from the chunk. -/
theorem rgbaSetsAllChannels : Obligations.RgbaSetsAllChannels := by
  refine ⟨fun c r g b a rest hc => ?decodes, fun s r g b a h hn => ?completes, fun s r g b a hp hn => ?cut⟩
  case decodes =>
    have hkind : chunkKind c c.tagRgba = .rgba := chunkKind_of_opens hc (k := .rgba) rfl
    exact decodeChunk_of_kind hkind (r :: g :: b :: a :: rest)
  case completes => exact exists_pixelProduced_of_chunk (i := .rgba r g b a) rfl h hn
  case cut => exact exists_errorTaken_of_chunk_cut rfl hp hn

end Sys2Proof.Machine
end

section
/-! The colour hash in its low six bits (43_index_cache.md R161, R162). -/

namespace Sys2Proof.Machine

/-- The hash may be formed on the channels' low six bits in 6-bit arithmetic: a slot is what the sum leaves mod 64
(43_index_cache.md R161). -/
theorem hash_eq_sum_lowBits {c : Config} (hc : c.cacheSlots = 64) (q : Pixel) :
    hash c q = BitVec.ofNat 6 c.hashR * q.r.setWidth 6 + BitVec.ofNat 6 c.hashG * q.g.setWidth 6 +
      BitVec.ofNat 6 c.hashB * q.b.setWidth 6 + BitVec.ofNat 6 c.hashA * q.a.setWidth 6 := by
  have hsum : hash c q = BitVec.ofNat 6 (hashSum c q) := BitVec.eq_of_toNat_eq (hash_toNat hc q)
  simp only [hsum, hashSum, BitVec.ofNat_add, BitVec.ofNat_mul, BitVec.ofNat_toNat]

/-- 64 more in a channel leaves its low six bits. -/
theorem setWidth_add_64 (x : Byte) : (x + 64).setWidth 6 = x.setWidth 6 :=
  (BitVec.setWidth_add x 64 (by decide)).trans (BitVec.add_zero _)

/-- The low six bits of the sum do not depend on the width it is formed in, from six bits on (43_index_cache.md R161). -/
theorem hash_standardConfig_eq_setWidth (q : Pixel) {n : Nat} (hn : 6 ≤ n) : hash standardConfig q =
    (3 * q.r.setWidth n + 5 * q.g.setWidth n + 7 * q.b.setWidth n + 11 * q.a.setWidth n).setWidth 6 := by
  rw [hash_eq_sum_lowBits wf_standardConfig.slots]
  simp only [standardConfig, BitVec.setWidth_add _ _ hn, BitVec.setWidth_mul _ _ hn,
    BitVec.setWidth_setWidth_of_le _ hn, BitVec.setWidth_ofNat_of_le hn, BitVec.ofNat_eq_ofNat]

/-- Settles O11: the low six bits of the channels decide the slot, so neither the width of the sum nor 64 more in a
channel matters. -/
theorem hashIsWeightedSumMod64 : Obligations.HashIsWeightedSumMod64 := by
  refine ⟨fun c q hc => hash_toNat hc.slots q, fun q => ⟨?sum, ?bound, ?bytes, fun n hn => ?width⟩,
    fun c q hc => ?add64, ?values⟩
  case sum => exact hash_toNat wf_standardConfig.slots q
  case bound =>
    have hr := q.r.isLt
    have hg := q.g.isLt
    have hb := q.b.isLt
    have ha := q.a.isLt
    omega
  case bytes => simpa only [BitVec.setWidth_eq] using hash_standardConfig_eq_setWidth q (n := 8) (by decide)
  case width => exact hash_standardConfig_eq_setWidth q hn
  case add64 => simp only [hash_eq_sum_lowBits hc.slots, setWidth_add_64, and_self]
  case values => decide

end Sys2Proof.Machine
end

section
/-! The chunk INDEX: what it loads, and which pixel of the decode that is (43_index_cache.md R163 to R168). -/

namespace Sys2Proof.Machine

/-- INDEX of a slot that holds `q` produces `q` and clears the run counter (43_index_cache.md R163). -/
theorem exists_pixelProduced_of_index {s : State} {idx : Slot} {q : Pixel} (h : s.CanProduce)
    (hn : s.p.toNat + 1 ≤ s.len) (hq : cacheGet s.cache idx = q) :
    ∃ t, exec (.index idx) s = .next t ∧ PixelProduced s t q 0 1 :=
  hq ▸ exists_pixelProduced_of_chunk (i := .index idx) rfl h hn

/-- Settles O14: the INDEX tag under the mask opens its own kind, and the step is the chunk's, whose effect is the slot's
pixel. -/
theorem indexLoadsTheSlot : Obligations.IndexLoadsTheSlot := by
  refine ⟨fun c b1 rest hc htag => ?decodes, fun s idx h hn => ?completes, fun s idx hp hn => ?cut⟩
  case decodes =>
    have hkind : chunkKind c b1 = .index := chunkKind_of_opens hc (k := .index) htag
    exact decodeChunk_of_kind hkind rest
  case completes => exact exists_pixelProduced_of_index h hn rfl
  case cut => exact exists_errorTaken_of_chunk_cut rfl hp hn

/-- A slot that no pixel of the list hashes to keeps its earlier value (10_state.md R32). -/
theorem lastInSlot_of_forall_ne {c : Config} {i : Slot} (earlier : Pixel) {produced : List Pixel}
    (h : ∀ q ∈ produced, hash c q ≠ i) : lastInSlot c i earlier produced = earlier := by
  induction produced with
  | nil => rfl
  | cons q produced ih =>
    obtain ⟨hq, hrest⟩ := List.forall_mem_cons.1 h
    rw [lastInSlot_cons, if_neg hq, ih hrest]

/-- Over any steps after HEADER's, a slot that no pixel produced hashes to is unchanged (10_state.md R32). -/
theorem cacheGet_steps_of_forall_ne {s t : State} {n : Nat} {i : Slot} (hc : s.cmd = none) (hp : s.phase ≠ .header)
    (h : steps n s = .next t) (hne : ∀ q ∈ pixelsProduced n s, hash s.cfg q ≠ i) :
    cacheGet t.cache i = cacheGet s.cache i :=
  (cacheGet_steps hc hp h i).trans (lastInSlot_of_forall_ne _ hne)

/-- Settles O24: the header puts the seed into every slot, and no pixel since has written this one. -/
theorem unwrittenSlotGivesTheSeed : Obligations.UnwrittenSlotGivesTheSeed := by
  refine ⟨fun s t u m w h ch cs n idx hc hx hp hsteps hne hcan hlen => ?_, by decide, by decide⟩
  obtain ⟨-, ⟨e, -, rfl⟩ | ⟨-, rfl⟩⟩ := execHeader_next hx
  · simp at hp
  · have hkept := cacheGet_steps_of_forall_ne (s := latchHeader w h ch cs s) hc (by simp) hsteps hne
    rw [latchHeader_cache, cacheGet_replicate, cacheSeed_eq] at hkept
    exact exists_pixelProduced_of_index hcan hlen hkept

/-- Settles O26: the pixel step puts its pixel into the slot, and no pixel since has written it. -/
theorem indexReproducesAnEarlierPixel : Obligations.IndexReproducesAnEarlierPixel := by
  intro s s₁ t n hc hp hstep hne hsteps hothers hcan hlen
  have hdecoder := decoderStep_of_step hc hstep
  have hwritten : cacheGet s₁.cache (hash s.cfg s₁.px) = s₁.px := by
    rw [hdecoder.cacheGet_eq (by simp [hp]), if_pos ⟨hp, hne⟩, if_pos rfl]
  have hkept : cacheGet t.cache (hash s.cfg s₁.px) = cacheGet s₁.cache (hash s.cfg s₁.px) :=
    cacheGet_steps_of_forall_ne (hdecoder.cmd_eq.trans hc) hdecoder.phase_ne_header hsteps (by rwa [hdecoder.cfg_eq])
  exact exists_pixelProduced_of_index hcan hlen (hkept.trans hwritten)

end Sys2Proof.Machine
end

section
/-! The delta chunks DIFF and LUMA, and what they leave of a pixel (44_delta.md R175 to R182). -/

namespace Sys2Proof.Machine

/-- A channel update is the byte addition of the delta's residue mod 256 (44_delta.md R181). -/
theorem addDelta_eq_add (old : Byte) (d : Int) : addDelta old d = old + BitVec.ofInt 8 d := by
  rw [addDelta, BitVec.ofInt_add, BitVec.ofInt_natCast, BitVec.ofNat_toNat, BitVec.setWidth_eq]

/-- Reducing an intermediate sum changes nothing (44_delta.md R181). -/
theorem addDelta_addDelta (old : Byte) (d e : Int) : addDelta (addDelta old d) e = addDelta old (d + e) := by
  simp only [addDelta_eq_add, BitVec.ofInt_add, BitVec.add_assoc]

/-- Where a pixel step is enabled and the chunk's bytes are there, the chunk leaves the red channel of its effect and
raises nothing (41_pixel_step.md R131). -/
theorem exists_red_of_chunk {i : Instr} {s : State} {red : Byte} (hi : i.recordKind = .chunk) (h : s.CanProduce)
    (hn : s.p.toNat + i.length ≤ s.len) (hred : (chunkEffect s.cfg s.px s.cache i).1.r = red) :
    ∃ t, exec i s = .next t ∧ t.px.r = red ∧ t.phase ≠ .error ∧ t.err = s.err := by
  obtain ⟨t, hexec, hpixel⟩ := exists_pixelProduced_of_chunk hi h hn
  refine ⟨t, hexec, (congrArg Pixel.r hpixel.px).trans hred, ?_, hpixel.err⟩
  obtain hp | hp := hpixel.phase_or <;> simp [hp]

/-- Settles O15: the DIFF tag under the mask opens its own kind, and the step is the chunk's, whose effect adds the
three deltas to the old pixel. -/
theorem diffAddsThreeDeltas : Obligations.DiffAddsThreeDeltas := by
  refine ⟨fun c b1 rest hc htag => ?decodes, fun s dr dg db h hn => ?completes, fun s dr dg db hp hn => ?cut⟩
  case decodes =>
    have hkind : chunkKind c b1 = .diff := chunkKind_of_opens hc (k := .diff) htag
    exact decodeChunk_of_kind hkind rest
  case completes => exact exists_pixelProduced_of_chunk (i := .diff dr dg db) rfl h hn
  case cut => exact exists_errorTaken_of_chunk_cut rfl hp hn

/-- Settles O16: the LUMA tag under the mask opens its own kind whatever the second byte is, and the step is the
chunk's, whose effect adds the side deltas to the green delta. -/
theorem lumaAddsGreenRelativeDeltas : Obligations.LumaAddsGreenRelativeDeltas := by
  refine ⟨fun c b1 b2 rest hc htag => ?decodes, fun s dg drDg dbDg h hn => ?completes,
    fun s dg drDg dbDg hp hn => ?cut⟩
  case decodes =>
    have hkind : chunkKind c b1 = .luma := chunkKind_of_opens hc (k := .luma) htag
    exact decodeChunk_of_kind hkind (b2 :: rest)
  case completes => exact exists_pixelProduced_of_chunk (i := .luma dg drDg dbDg) rfl h hn
  case cut => exact exists_errorTaken_of_chunk_cut rfl hp hn

/-- Settles O9: a channel update is a byte addition, and the two chunks' red deltas are both -1. -/
theorem channelArithmeticWraps : Obligations.ChannelArithmeticWraps := by
  have hwraps : addDelta 0 (-1) = 255 := by decide
  refine ⟨addDelta_toNat, addDelta_addDelta, hwraps, fun s dg db hcfg h hn hred => ?diff,
    fun s dbDg hcfg h hn hred => ?luma⟩
  case diff =>
    have hdelta : diffDelta s.cfg 1 = -1 := by rw [hcfg]; decide
    refine exists_red_of_chunk (i := .diff 1 dg db) rfl h hn ?_
    show addDelta s.px.r (diffDelta s.cfg 1) = 255
    rw [hred, hdelta, hwraps]
  case luma =>
    have hdelta : lumaSideDelta s.cfg 31 8 = -1 := by rw [hcfg]; decide
    refine exists_red_of_chunk (i := .luma 31 8 dbDg) rfl h hn ?_
    show addDelta s.px.r (lumaSideDelta s.cfg 31 8) = 255
    rw [hred, hdelta, hwraps]

/-- A record other than RGBA and INDEX has no effect on alpha (44_delta.md R182). -/
theorem rgba_or_index_of_alpha_ne {c : Config} {old : Pixel} {cache : Vector Pixel 64} {i : Instr}
    (h : (chunkEffect c old cache i).1.a ≠ old.a) : (∃ r g b a, i = .rgba r g b a) ∨ ∃ idx, i = .index idx := by
  cases i with
  | rgba r g b a => exact .inl ⟨r, g, b, a, rfl⟩
  | index idx => exact .inr ⟨idx, rfl⟩
  | _ => exact absurd rfl h

/-- Settles O23: an error and a run carried over keep the pixel, so the pixel is the effect of a chunk, and
RGBA and INDEX alone change alpha. -/
theorem alphaChangesOnlyByRgbaAndIndex : Obligations.AlphaChangesOnlyByRgbaAndIndex := by
  intro s t hc hp hstep hne
  cases decoderStep_of_step hc hstep with
  | raised => simp at hne
  | header cs hheader => simp [hp] at hheader
  | trailer htrailer => simp [hp] at htrailer
  | pixel _ hsrc =>
    obtain ⟨hrun, i, rest, hd, -, heffect⟩ | ⟨-, -, rfl, -⟩ := hsrc
    · obtain ⟨rfl, -⟩ := Prod.ext_iff.1 heffect
      exact ⟨hrun, i, rest, hd, rgba_or_index_of_alpha_ne hne⟩
    · exact absurd rfl hne

/-- Settles O10: the tables' entries are values of the model, and those of LUMA do not look at alpha. -/
theorem deltaTables : Obligations.DeltaTables :=
  ⟨by decide, by decide, fun _ => rfl⟩

end Sys2Proof.Machine
end

section
/-! The RUN chunk (45_run.md R191, R196): the byte that opens it, the step, and the bound of the counter. -/

namespace Sys2Proof

/-- A byte of the RUN class that is no literal tag is of kind RUN: the tag of the class is none of the other three
(30_encoding.md R90, 00_scope.md R8 b). -/
theorem chunkKind_of_runClass {c : Config} (hc : c.Wf) {b1 : Byte} (hclass : b1 &&& c.tagMask = c.tagRun)
    (hrgb : b1 ≠ c.tagRgb) (hrgba : b1 ≠ c.tagRgba) : chunkKind c b1 = .run := by
  have distinct := hc.tagsDistinct
  simp only [List.nodup_cons, List.mem_cons, List.not_mem_nil, or_false, not_or] at distinct
  obtain ⟨⟨-, -, hindex⟩, ⟨-, hdiff⟩, hluma, -⟩ := distinct
  simp [chunkKind, hrgb, hrgba, hclass, Ne.symm hindex, Ne.symm hdiff, Ne.symm hluma]

end Sys2Proof

namespace Sys2Proof.Machine

/-- Settles O17: the RUN class without the literal tags opens the kind RUN, and the step is the chunk's, whose effect
keeps the pixel and loads the field. -/
theorem runLoadsTheCounter : Obligations.RunLoadsTheCounter := by
  refine ⟨fun c b1 rest hc hclass hrgb hrgba => ?decodes, fun s rl h hn => ?completes, fun s rl hp hn => ?cut⟩
  case decodes => exact decodeChunk_of_kind (chunkKind_of_runClass hc hclass hrgb hrgba) rest
  case completes => exact exists_pixelProduced_of_chunk (i := .run rl) rfl h hn
  case cut => exact exists_errorTaken_of_chunk_cut rfl hp hn

/-- No decoder step takes the run counter above the largest RUN field (45_run.md R196). -/
theorem DecoderStep.run_le {s t : State} (h : DecoderStep s t) (hc : s.cfg.Wf)
    (hr : s.run.toNat ≤ s.cfg.runFieldMax) : t.run.toNat ≤ s.cfg.runFieldMax := by
  cases h with
  | raised => simpa using hr
  | header => simp
  | pixel _ hsrc => exact hsrc.run_le hc hr
  | trailer => exact hr

/-- Settles O51: a header clears the counter, a start leaves it, and a decoder step keeps it within the RUN field. -/
theorem runCounterStaysBelow62 : Obligations.RunCounterStaysBelow62 := by
  refine ⟨fun s t m w h ch cs hx hp => ?header, fun s t hc hcmd hr hstep => ?step⟩
  case header =>
    obtain ⟨-, ⟨e, -, rfl⟩ | ⟨-, rfl⟩⟩ := execHeader_next hx
    · simp at hp
    · simp
  case step =>
    cases hcommand : s.cmd with
    | none =>
      rw [← hc.runField] at hr ⊢
      exact (decoderStep_of_step hcommand hstep).run_le hc hr
    | some command =>
      obtain ⟨rfl, -⟩ | ⟨stream, -, -, -, rfl⟩ := takeCommand_next (takeCommand_of_step hcommand hstep)
      · exact absurd hcommand hcmd
      · exact hr

end Sys2Proof.Machine
end

section
/-! The run carried over (45_run.md R192 to R195): the pixel of a RUN chunk at one position after another, until the
count or the image ends. -/

namespace Sys2Proof.Machine

/-- A pixel committed without reading a byte is all that the rules of a pixel step ask for, wherever the cursor stands,
in the stream or past it: with no byte to read it may as well stand at 0 (45_run.md R193). -/
theorem pixelProduced_afterPixel_zero {s : State} {q : Pixel} {run : BitVec 6} {b : OutBuffer} (h : s.CanProduce)
    (hb : s.out = some b) : PixelProduced s (s.afterPixel q run 0 (s.writePixel q b)) q run 0 := by
  have hzero : State.CanProduce { s with p := 0 } := ⟨h.phase, h.len, h.pos, h.room⟩
  have hpixel := pixelProduced_afterPixel (q := q) (run := run) (n := 0) hzero (Nat.zero_le _) hb
  exact { hpixel with
    cursor := by simp
    header := by constructor <;> rfl }

/-- One repeat fewer is one less: a run that is pending does not wrap (45_run.md R193). -/
theorem toNat_run_sub_one {run : BitVec 6} (h : run ≠ 0) : (run - 1).toNat = run.toNat - 1 := by
  rw [Ne, ← BitVec.toNat_inj] at h
  bv_omega

/-- Settles O18: the step is the carry-over, which commits the same pixel from no byte. -/
theorem carryOverRepeatsThePixel : Obligations.CarryOverRepeatsThePixel := by
  intro s hc h hr
  obtain ⟨b, hb, hroom⟩ := h.room
  have hpixel := pixelProduced_afterPixel_zero (q := s.px) (run := s.run - 1) h hb
  exact ⟨_, (step_carryOver hc h.phase hr).trans (commitPixel_of_room _ _ _ hb hroom), hpixel,
    toNat_run_sub_one hr, BitVec.eq_of_toNat_eq hpixel.cursor⟩

/-- Under the invariant a pixel step that has its pixel's source commits the pixel and keeps the invariant
(41_pixel_step.md R131). -/
theorem State.Inv.exists_pixelProduced {s : State} {q : Pixel} {run : BitVec 6} {n : Nat} (h : s.Inv)
    (hc : s.cmd = none) (hp : s.phase = .pixels) (hsrc : PixelSource s q run n) :
    ∃ t, step s = .next t ∧ PixelProduced s t q run n ∧ t.Inv := by
  have hcan := h.canProduce hp
  have hn := h.cursor_add_le hp hsrc
  obtain ⟨b, hb, hroom⟩ := hcan.room
  exact ⟨_, step_of_pixelSource hc hp hsrc hn hb hroom, pixelProduced_afterPixel hcan hn hb,
    inv_afterPixel h hp hsrc hb hroom⟩

/-- While pixels are produced or once they are, the position tells which (41_pixel_step.md R139). -/
theorem State.Inv.phase_eq_ite {s : State} (h : s.Inv) (hp : s.phase = .pixels ∨ s.phase = .trailer) :
    s.phase = if s.pos.toNat = s.npx.toNat then .trailer else .pixels := by
  obtain hp | hp := hp
  · rw [hp, if_neg (h.before hp).ne]
  · rw [hp, if_pos (h.after (.inl hp))]

/-- One step more at the end of a run of steps. -/
theorem steps_succ_of_step {s t u : State} {n : Nat} (hsteps : steps n s = .next t) (hstep : step t = .next u) :
    steps (n + 1) s = .next u := by
  induction n generalizing s with
  | zero => cases hsteps; simp only [steps, hstep]
  | succ n ih =>
    obtain ⟨s', hs', hrest⟩ := steps_succ_next hsteps
    rw [steps, hs']
    exact ih hrest

/-- The bytes of the pixel `q` stand at `m` consecutive positions of the output, from `pos` on (20_memory.md R55). -/
def State.HoldsPixel (s : State) (q : Pixel) (pos m : Nat) : Prop :=
  ∀ j, j < m → ∀ k, k < stride s.channels →
    s.outByte ((pos + j) * stride s.channels + k) = (pixelBytes s.channels q)[k]?

/-- A pixel produced at the next position is one position more that holds it (41_pixel_step.md R138). -/
theorem PixelProduced.holdsPixel_succ {s t : State} {q : Pixel} {run : BitVec 6} {n pos m : Nat}
    (h : PixelProduced s t q run n) (hpos : s.pos.toNat = pos + m) (hs : s.HoldsPixel q pos m) :
    t.HoldsPixel q pos (m + 1) := by
  intro j hj k hk
  rw [h.header.channels] at hk ⊢
  obtain hj | rfl := Nat.lt_succ_iff_lt_or_eq.1 hj
  · have hbelow : (pos + j + 1) * stride s.channels ≤ s.pos.toNat * stride s.channels :=
      Nat.mul_le_mul_right _ (by omega)
    rw [Nat.succ_mul] at hbelow
    rw [h.otherBytes _ (.inl (by omega))]
    exact hs j hj k hk
  · rw [← hpos]
    exact h.bytes k hk

/-- What leaves the header registers twice leaves them. -/
theorem State.SameHeader.trans {s t u : State} (h : s.SameHeader t) (h' : t.SameHeader u) : s.SameHeader u where
  cfg := h'.cfg.trans h.cfg
  stream := h'.stream.trans h.stream
  cmd := h'.cmd.trans h.cmd
  width := h'.width.trans h.width
  height := h'.height.trans h.height
  channels := h'.channels.trans h.channels
  colorspace := h'.colorspace.trans h.colorspace
  npx := h'.npx.trans h.npx

/-- What `m` steps make of a state `s` that fetches RUN `rl` (45_run.md R192). -/
structure RunProgress (s t : State) (rl : BitVec 6) (m : Nat) : Prop where
  inv : t.Inv
  header : s.SameHeader t
  phase : t.phase = .pixels ∨ t.phase = .trailer
  px : t.px = s.px
  run : t.run.toNat = rl.toNat + 1 - m
  cursor : t.p.toNat = s.p.toNat + 1
  position : t.pos.toNat = s.pos.toNat + m
  holds : t.HoldsPixel s.px s.pos.toNat m

/-- The chunk's own step is the first of its pixels (45_run.md R191). -/
theorem PixelProduced.runProgress_one {s t : State} {rl : BitVec 6} (h : PixelProduced s t s.px rl 1) (hinv : t.Inv) :
    RunProgress s t rl 1 where
  inv := hinv
  header := h.header
  phase := h.phase_or
  px := h.px
  run := congrArg BitVec.toNat h.run
  cursor := h.cursor
  position := h.position
  holds := h.holdsPixel_succ rfl fun _ hj => absurd hj (Nat.not_lt_zero _)

/-- A repeat carried over is the next of the chunk's pixels (45_run.md R193). -/
theorem RunProgress.succ {s t u : State} {rl : BitVec 6} {m : Nat} (ht : RunProgress s t rl m)
    (h : PixelProduced t u t.px (t.run - 1) 0) (hr : t.run ≠ 0) (hinv : u.Inv) : RunProgress s u rl (m + 1) where
  inv := hinv
  header := ht.header.trans h.header
  phase := h.phase_or
  px := h.px.trans ht.px
  run := by rw [h.run, toNat_run_sub_one hr, ht.run, Nat.sub_sub]
  cursor := h.cursor.trans ht.cursor
  position := by rw [h.position, ht.position, Nat.add_assoc]
  holds := ht.px ▸ h.holdsPixel_succ ht.position (ht.px ▸ ht.holds)

/-- A RUN chunk spreads its pixel over as many positions as it announces and the image has (45_run.md R192): induction
on the steps, the chunk's own and then one repeat carried over after another. -/
theorem exists_runProgress {s : State} {rl : BitVec 6} {rest : List Byte} {m : Nat} (h : s.Inv) (hc : s.cmd = none)
    (hp : s.phase = .pixels) (hr : s.run = 0) (hd : decodeChunk s.cfg s.fromCursor = .ok (.run rl, rest))
    (hm : 1 ≤ m) (hrl : m ≤ rl.toNat + 1) (hroom : s.pos.toNat + m ≤ s.npx.toNat) :
    ∃ t, steps m s = .next t ∧ RunProgress s t rl m := by
  induction m, hm using Nat.le_induction with
  | base =>
    obtain ⟨t, hstep, hpixel, hinv⟩ := h.exists_pixelProduced hc hp (.inl ⟨hr, .run rl, rest, hd, rfl, rfl⟩)
    exact ⟨t, steps_succ_of_step rfl hstep, hpixel.runProgress_one hinv⟩
  | succ m hm ih =>
    obtain ⟨t, hsteps, ht⟩ := ih (by omega) (by omega)
    have hmore : t.phase = .pixels := by
      rw [ht.inv.phase_eq_ite ht.phase, if_neg (by rw [ht.position, ht.header.npx]; omega)]
    have hpending : t.run ≠ 0 := by
      have hrun := ht.run
      rw [Ne, ← BitVec.toNat_inj, hrun, BitVec.ofNat_eq_ofNat, BitVec.toNat_ofNat, Nat.zero_mod]
      omega
    obtain ⟨u, hstep, hpixel, hinv⟩ :=
      ht.inv.exists_pixelProduced (ht.header.cmd.trans hc) hmore (.inr ⟨hpending, rfl, rfl, rfl⟩)
    exact ⟨u, steps_succ_of_step hsteps hstep, ht.succ hpixel hpending hinv⟩

/-- The phase after `m` steps of a RUN chunk: TRAILER exactly when the image is complete (41_pixel_step.md R139). -/
theorem RunProgress.phase_eq {s t : State} {rl : BitVec 6} {m : Nat} (h : RunProgress s t rl m) :
    t.phase = if s.pos.toNat + m = s.npx.toNat then .trailer else .pixels := by
  rw [h.inv.phase_eq_ite h.phase, h.position, h.header.npx]

/-- No step of a RUN chunk raises an error (45_run.md R192). -/
theorem RunProgress.err_eq_none {s t : State} {rl : BitVec 6} {m : Nat} (h : RunProgress s t rl m) : t.err = none :=
  h.inv.err_eq_none (by obtain hp | hp := h.phase <;> simp [hp])

/-- Settles O19: what the steps of the chunk have come to. -/
theorem runStandsForRlPlusOnePixels : Obligations.RunStandsForRlPlusOnePixels := by
  intro s rl rest m h hc hp hr hd hm hrl hroom
  obtain ⟨t, hsteps, ht⟩ := exists_runProgress h hc hp hr hd hm hrl hroom
  exact ⟨t, hsteps, ht.px, ht.run, ht.cursor, ht.position, ht.err_eq_none, ht.phase_eq, ht.header.channels ▸ ht.holds⟩

/-- A header that passes leaves a state whose pixel step completes (40_header.md R119, 20_memory.md R56). -/
theorem canProduce_latchHeader {s : State} {m w h : Word} {ch : Byte} (cs : Byte) (hc : s.cfg.Wf)
    (hlen : s.len < 2 ^ 32) (hp : HeaderPasses s.cfg s.len m w h ch) : (latchHeader w h ch cs s).CanProduce where
  phase := rfl
  len := hlen
  pos := (latched_latchHeader cs hc hp).npxBounds.1
  room := by
    have hnpx : 1 ≤ (w * h).toNat := (latched_latchHeader cs hc hp).npxBounds.1
    refine ⟨_, rfl, ?_⟩
    show 0 * stride ch + stride ch ≤ (w * h).toNat * ch.toNat
    rw [Nat.zero_mul, Nat.zero_add, stride_eq ch hp.channelsOk]
    exact Nat.le_mul_of_pos_left _ hnpx

/-- Under the standard parameters a header that passes leaves the padding's bytes at least to read: a first chunk of one
byte is there (40_header.md R113). -/
theorem cursor_latchHeader_succ_le {s : State} {m w h : Word} {ch : Byte} (cs : Byte) (hcfg : s.cfg = standardConfig)
    (hp : HeaderPasses s.cfg s.len m w h ch) :
    (latchHeader w h ch cs s).p.toNat + 1 ≤ (latchHeader w h ch cs s).len := by
  have hheader : 22 ≤ s.len := by simpa [hcfg, standardConfig] using hp.lengthOk
  rw [latchHeader_p_eq w h ch cs (hcfg ▸ wf_standardConfig)]
  show 14 + 1 ≤ s.len
  omega

/-- The bytes of opaque black in either channel mode (20_memory.md R55). -/
theorem pixelBytes_opaqueBlack {ch : Byte} (hch : ch = 3 ∨ ch = 4) :
    ∀ k, k < ch.toNat → (pixelBytes ch ⟨0, 0, 0, 255⟩)[k]? = some (if k = 3 then 0xFF else 0x00) := by
  obtain rfl | rfl := hch <;> decide

/-- Settles O20: (a) the header leaves `PX_INIT` and room for a pixel; (b) the chunk's steps up to the last position;
(c) the pixel is the chunk's before, whichever it was. -/
theorem runMayStandAnywhere : Obligations.RunMayStandAnywhere := by
  obtain ⟨-, completes, -⟩ := runLoadsTheCounter
  refine ⟨fun s t m w h ch cs rl hcfg hlen hx hp => ?first, fun s rl rest h hc hp hr hd hmore => ?last,
    fun i s t rl _ _ hcan hn => ?after⟩
  case first =>
    obtain ⟨-, ⟨e, -, rfl⟩ | ⟨he, rfl⟩⟩ := execHeader_next hx
    · simp at hp
    have hpasses := headerError_eq_none_iff.1 he
    have hwf : s.cfg.Wf := hcfg ▸ wf_standardConfig
    obtain ⟨u, hexec, hpixel⟩ := completes _ rl (canProduce_latchHeader cs hwf hlen hpasses)
      (cursor_latchHeader_succ_le cs hcfg hpasses)
    have hinit : (latchHeader w h ch cs s).px = ⟨0, 0, 0, 255⟩ := by rw [latchHeader_px, hcfg]; rfl
    rw [hinit] at hpixel
    have hhash : hash (latchHeader w h ch cs s).cfg ⟨0, 0, 0, 255⟩ = 53 := by rw [latchHeader_cfg, hcfg]; decide
    refine ⟨u, hexec, hpixel, hhash ▸ hpixel.slot, hpasses.channelsOk, fun k hk => ?_⟩
    have hbyte := hpixel.bytes k (by rwa [latchHeader_channels, stride_eq ch hpasses.channelsOk])
    rw [← pixelBytes_opaqueBlack hpasses.channelsOk k hk]
    simpa using hbyte
  case last =>
    have hbefore := h.before hp
    obtain ⟨t, hsteps, ht⟩ := exists_runProgress (m := s.npx.toNat - s.pos.toNat) h hc hp hr hd (by omega) (by omega)
      (by omega)
    have hcomplete : t.phase = .trailer := ht.phase_eq.trans (if_pos (by omega))
    exact ⟨t, hsteps, hcomplete, ht.err_eq_none, ht.cursor, ht.run⟩
  case after =>
    obtain ⟨u, hexec, hpixel⟩ := completes t rl hcan hn
    exact ⟨u, hexec, hpixel.px⟩

end Sys2Proof.Machine
end

section
/-! The TRAILER step (46_trailer.md R201 to R204): when each of its checks is the first to fail, and what the step makes
of the cursor and the bytes it finds there. -/

namespace Sys2Proof.Machine

/-- `Truncated` is the error of the length check alone (46_trailer.md R202). -/
theorem trailerError_eq_truncated_iff {c : Config} {p len : Nat} {pad : List Byte} :
    trailerError c p len pad = some .truncated ↔ len < p + c.padLen := by
  unfold trailerError
  split_ifs with hcut <;> simp [hcut]

/-- `BadPadding` is the error of bytes left over under `STRICT_END` and of a mismatch, once the trailer's bytes are there
(46_trailer.md R201, R203). -/
theorem trailerError_eq_badPadding_iff {c : Config} {p len : Nat} {pad : List Byte} :
    trailerError c p len pad = some .badPadding ↔
      p + c.padLen ≤ len ∧ (c.strictEnd ∧ p + c.padLen < len ∨ pad ≠ c.sentinel) := by
  rw [← Nat.not_lt]
  unfold trailerError
  split_ifs <;> simp_all

/-- No check fails exactly at the sentinel, which under `STRICT_END` ends the stream (46_trailer.md R201). -/
theorem trailerError_eq_none_iff {c : Config} {p len : Nat} {pad : List Byte} :
    trailerError c p len pad = none ↔
      p + c.padLen ≤ len ∧ ¬ (c.strictEnd ∧ p + c.padLen < len) ∧ pad = c.sentinel := by
  rw [← Nat.not_lt]
  unfold trailerError
  split_ifs <;> simp_all

/-- Settles O31: each clause decides the checks, the sentinel passes them all and the first failing one's error is
taken. -/
theorem trailerDecidesTheDecode : Obligations.TrailerDecidesTheDecode := by
  intro s pad hp raises passes
  have passed (h : trailerError s.cfg s.p.toNat s.len pad = none) : passes := execTrailer_pass hp h
  have raised {e : FormatError} (h : trailerError s.cfg s.p.toNat s.len pad = some e) : raises e :=
    ⟨_, execTrailer_fail hp h, errorTaken_raise e s⟩
  refine ⟨fun hend hpad => passed ?atEnd, fun hloose hroom hpad => passed ?loose, fun hcut => raised ?cut,
    fun hstrict hleft => raised ?leftOver, fun hroom hpad => raised ?mismatch⟩
  case atEnd => exact trailerError_eq_none_iff.2 ⟨hend.le, fun hleft => hleft.2.ne hend, hpad⟩
  case loose => exact trailerError_eq_none_iff.2 ⟨hroom, by simp [hloose], hpad⟩
  case cut => exact trailerError_eq_truncated_iff.2 hcut
  case leftOver => exact trailerError_eq_badPadding_iff.2 ⟨hleft.le, .inl ⟨hstrict, hleft⟩⟩
  case mismatch => exact trailerError_eq_badPadding_iff.2 ⟨hroom, .inr hpad⟩

/-- At the end of the stream the bytes read at the cursor are all that are left (46_trailer.md R204). -/
theorem State.take_fromCursor_of_end {s : State} {n : Nat} (h : s.p.toNat + n = s.len) :
    s.fromCursor.take n = s.fromCursor := by
  have hlength : s.fromCursor.length = s.len - s.p.toNat := List.length_drop
  exact List.take_of_length_le (by omega)

/-- Settles O32: the step is the meaning of TRAILER on the bytes at the cursor, which at the end of the stream are all
that are left. -/
theorem decodeSucceedsExactlyAtTheSentinel : Obligations.DecodeSucceedsExactlyAtTheSentinel := by
  intro s hc hp
  have hstep : step s = exec (.trailer (s.fromCursor.take s.cfg.padLen)) s := step_eq_execTrailer hc hp
  obtain ⟨atEnd, loose, cut, leftOver, mismatch⟩ := trailerDecidesTheDecode s (s.fromCursor.take s.cfg.padLen) hp
  rw [hstep]
  refine ⟨fun hend hpad => atEnd hend ?_, fun hend hpad => mismatch hend.le ?_, leftOver, cut,
    fun hloose hleft => ⟨loose hloose hleft.le, mismatch hleft.le⟩⟩
  · rwa [State.take_fromCursor_of_end hend]
  · rwa [State.take_fromCursor_of_end hend]

end Sys2Proof.Machine
end

section
/-! The host's commands and the codes of the errors (60_exceptions.md R211, R230, R232; 70_reset_and_hazards.md R250,
R252). -/

namespace Sys2Proof.Machine

/-- A command presented is what the next step takes (log 3). -/
theorem step_present (s : State) (c : HostCommand) : step (s.present c) = takeCommand c (s.present c) := rfl

/-- A start is allowed exactly where no decode is in progress (60_exceptions.md R230). -/
theorem State.canStart_eq_false_iff {s : State} : s.phase.canStart = false ↔ s.Decoding := by
  rw [State.Decoding]
  cases s.phase <;> simp [Phase.canStart]

/-- Settles O36: by evaluating the eight codes. -/
theorem errorCodes : Obligations.ErrorCodes := rfl

/-- Settles O41: a decode in progress does not allow a start. -/
theorem startDuringADecodeIsRefused : Obligations.StartDuringADecodeIsRefused := by
  intro s stream hd
  have hno := State.canStart_eq_false_iff.2 hd
  simp [step_present, takeCommand, hno]

/-- Settles O42: the start is allowed, and its length is checked next. -/
theorem overlongStartIsRefused : Obligations.OverlongStartIsRefused := by
  intro s stream hp hlen
  have hstart := Phase.canStart_iff.2 hp
  rw [step_present, takeCommand, State.present_phase, hstart, if_neg (by simp), if_pos hlen]

/-- Settles O40: the start is taken, and of the registers listed it writes the stream, `err`, `p` and `phase`. -/
theorem startBindsTheStream : Obligations.StartBindsTheStream := by
  intro s stream hp hlen
  exact ⟨_, step_present_start_of_allowed (Phase.canStart_iff.2 hp) hlen, by simp⟩

/-- Settles O45: a reset is taken in any phase. -/
theorem hardwareResetGivesIdle : Obligations.HardwareResetGivesIdle :=
  ⟨⟨rfl, rfl, rfl⟩, fun s => ⟨hardReset s, step_present s .hardReset, rfl, rfl, rfl, rfl⟩⟩

end Sys2Proof.Machine
end

section
/-! The errors a step can take (60_exceptions.md R212, R213). -/

namespace Sys2Proof.Machine

/-- No command taken leaves an error: a reset and a start both end with `ERR_NONE` outside ERROR (60_exceptions.md
R230). -/
theorem takeCommand_raises_nothing {c : HostCommand} {s t : State} (h : takeCommand c s = .next t) :
    t.phase ≠ .error ∧ t.err = none := by
  obtain ⟨-, rfl⟩ | ⟨stream, -, -, -, rfl⟩ := takeCommand_next h
  · exact ⟨nofun, rfl⟩
  · exact ⟨nofun, rfl⟩

/-- Settles O34: of what a step can end in, only an error taken is in ERROR. -/
theorem errorCommitsNothingElse : Obligations.ErrorCommitsNothingElse := by
  intro s t h herror
  cases hc : s.cmd with
  | some c => exact absurd herror (takeCommand_raises_nothing (takeCommand_of_step hc h)).1
  | none =>
    cases decoderStep_of_step hc h with
    | raised e => exact ⟨e, errorTaken_raise e s⟩
    | header => simp at herror
    | pixel => simp at herror
    | trailer => simp at herror

/-- The errors of the HEADER step (60_exceptions.md R212). -/
theorem headerError_mem {c : Config} {len : Nat} {m w h : Word} {ch : Byte} {e : FormatError}
    (he : headerError c len m w h ch = some e) :
    e ∈ [.tooShort, .badMagic, .invalidWidth, .invalidHeight, .invalidChannels] := by
  unfold headerError at he
  split_ifs at he <;> cases he <;> decide

/-- The errors of the TRAILER step (60_exceptions.md R212). -/
theorem trailerError_mem {c : Config} {p len : Nat} {pad : List Byte} {e : FormatError}
    (he : trailerError c p len pad = some e) : e ∈ [.truncated, .badPadding] := by
  unfold trailerError at he
  split_ifs at he <;> cases he <;> decide

/-- Settles O35: an update that raises nothing keeps `err`, and each phase's step raises its own errors. -/
theorem eachStepRaisesOnlyItsErrors : Obligations.EachStepRaisesOnlyItsErrors := by
  intro s t e hnone h he
  obtain ⟨c, -, htake⟩ | ⟨hc, hp, hstep⟩ | ⟨hc, hp, hstep⟩ | ⟨hc, hp, hstep⟩ := step_next h
  · simp [(takeCommand_raises_nothing htake).2] at he
  · refine ⟨hc, .inl ⟨hp, ?_⟩⟩
    obtain ⟨-, rfl⟩ | ⟨m, w, ht, ch, cs, -, -, ⟨e', hcheck, rfl⟩ | ⟨-, rfl⟩⟩ := hstep
    · cases (raise_err _ s).symm.trans he
      decide
    · cases (raise_err _ s).symm.trans he
      exact headerError_mem hcheck
    · simp [hnone] at he
  · refine ⟨hc, .inr (.inl ⟨hp, ?_⟩)⟩
    obtain ⟨hr, rfl⟩ | ⟨q, run, n, b, -, -, -, rfl⟩ := hstep
    · cases (raise_err _ s).symm.trans he
      exact ⟨hr, rfl⟩
    · simp [hnone] at he
  · refine ⟨hc, .inr (.inr ⟨hp, ?_⟩)⟩
    obtain ⟨-, rfl⟩ | ⟨-, ⟨e', hcheck, rfl⟩ | ⟨-, rfl⟩⟩ := hstep
    · cases (raise_err _ s).symm.trans he
      decide
    · cases (raise_err _ s).symm.trans he
      exact trailerError_mem hcheck
    · simp [hnone] at he

end Sys2Proof.Machine
end

section
/-! When a step without a command faults: where no decoder step is enabled (60_exceptions.md R240), and where a pixel's
output bytes do not exist (20_memory.md R56). -/

namespace Sys2Proof.Machine

/-- An output write fails under its own names (20_memory.md R56). -/
theorem memWrite_error {out : Option OutBuffer} {a : Nat} {vs : List Byte} {f : Fault}
    (h : memWrite out a vs = .error f) : f = .outputAbsent ∨ f = .outputOutOfRange := by
  unfold memWrite at h
  split at h
  · cases h; exact .inl rfl
  · split at h
    · cases h
    · cases h; exact .inr rfl

/-- A fault of a pixel's commit is the output write's, for want of the pixel's bytes (20_memory.md R56). -/
theorem commitPixel_fault {s : State} {q : Pixel} {run : BitVec 6} {n : Nat} {f : Fault}
    (h : commitPixel s q run n = .fault f) :
    f ≠ .noStepEnabled ∧ ¬ ∃ b, s.out = some b ∧ s.pos.toNat * stride s.channels + stride s.channels ≤ b.len := by
  constructor
  · unfold commitPixel at h
    split at h
    · rename_i hwrite
      cases h
      obtain rfl | rfl := memWrite_error hwrite <;> decide
    · cases h
  · rintro ⟨b, hb, hroom⟩
    rw [commitPixel_of_room q run n hb hroom] at h
    cases h

/-- A fault of a chunk's meaning is its commit's. -/
theorem chunkStep_fault {s : State} {q : Pixel} {run : BitVec 6} {n : Nat} {f : Fault}
    (h : chunkStep s n q run = .fault f) : commitPixel s q run n = .fault f := by
  unfold chunkStep at h
  split_ifs at h
  exact h

/-- The meaning of HEADER never faults. -/
theorem execHeader_ne_fault (m w h : Word) (ch cs : Byte) (s : State) (f : Fault) :
    execHeader m w h ch cs s ≠ .fault f := by
  unfold execHeader
  split
  · nofun
  · split <;> nofun

/-- The meaning of TRAILER never faults. -/
theorem execTrailer_ne_fault (pad : List Byte) (s : State) (f : Fault) : execTrailer pad s ≠ .fault f := by
  unfold execTrailer
  split
  · nofun
  · split <;> nofun

/-- Where no decode is in progress nothing is fetched, and the step stops by name (60_exceptions.md R240, log 4). -/
theorem step_of_not_decoding {s : State} (hc : s.cmd = none) (hd : ¬ s.Decoding) : step s = .fault .noStepEnabled := by
  cases hp : s.phase with
  | header => exact absurd (.inl hp) hd
  | pixels => exact absurd (.inr (.inl hp)) hd
  | trailer => exact absurd (.inr (.inr hp)) hd
  | _ => simp [step, hc, fetch, hp]

/-- A step of a decode in progress faults only as a pixel step whose output bytes do not exist. -/
theorem step_fault_of_decoding {s : State} {f : Fault} (hc : s.cmd = none) (hd : s.Decoding)
    (h : step s = .fault f) : s.phase = .pixels ∧ ∃ q run n, commitPixel s q run n = .fault f := by
  obtain hp | hp | hp := hd
  · obtain ⟨m, w, ht, ch, cs, -, -, hstep⟩ | ⟨-, hstep⟩ := step_header hc hp
    · exact absurd (hstep.symm.trans h) (execHeader_ne_fault m w ht ch cs s f)
    · cases hstep.symm.trans h
  · refine ⟨hp, ?_⟩
    by_cases hr : s.run = 0
    · obtain ⟨i, rest, hi, hstep⟩ | ⟨e, -, hstep⟩ := step_chunk hc hp hr
      · rw [hstep, exec_chunk (decodeChunk_ok hi).1] at h
        exact ⟨_, _, _, chunkStep_fault h⟩
      · cases hstep.symm.trans h
    · exact ⟨_, _, _, (step_carryOver hc hp hr).symm.trans h⟩
  · exact absurd ((step_eq_execTrailer hc hp).symm.trans h) (execTrailer_ne_fault _ s f)

/-- Settles O39: a fault of a decode in progress is the output write's, which has other names. -/
theorem noStepWhereNothingIsEnabled : Obligations.NoStepWhereNothingIsEnabled := by
  intro s hc
  refine ⟨fun h hd => ?_, step_of_not_decoding hc⟩
  obtain ⟨-, q, run, n, hcommit⟩ := step_fault_of_decoding hc hd h
  exact (commitPixel_fault hcommit).1 rfl

/-- Settles O37: a step without a command is never refused, and under the invariant the output buffer has the bytes
whose lack alone makes a decode fault. -/
theorem everyStreamIsAnswered : Obligations.EveryStreamIsAnswered := by
  intro s h hc hd
  cases hstep : step s with
  | next t => exact ⟨t, rfl⟩
  | refused r => exact absurd hstep (step_ne_refused hc r)
  | fault f =>
    obtain ⟨hp, q, run, n, hcommit⟩ := step_fault_of_decoding hc hd hstep
    exact absurd (h.canProduce hp).room (commitPixel_fault hcommit).2

end Sys2Proof.Machine
end

section
/-! How many steps a decode takes (70_reset_and_hazards.md R267). -/

namespace Sys2Proof.Machine

/-- The decode that `s` is in ends within `n` steps: in ERROR after at most `n`, in DONE after exactly `n`, with the
number of pixels that `s` has latched. -/
def State.EndsWithin (s : State) (n : Nat) : Prop :=
  ∃ k t, k ≤ n ∧ steps k s = .next t ∧ t.Over ∧ (t.phase = .done → k = n ∧ t.npx = s.npx)

/-- One step more before the end. -/
theorem State.EndsWithin.of_step {s u : State} {n : Nat} (hstep : step s = .next u) (hnpx : u.npx = s.npx)
    (h : u.EndsWithin n) : s.EndsWithin (n + 1) := by
  obtain ⟨k, t, hk, hsteps, hover, hdone⟩ := h
  refine ⟨k + 1, t, Nat.succ_le_succ hk, by rw [steps, hstep]; exact hsteps, hover, fun ht => ?_⟩
  obtain ⟨rfl, htnpx⟩ := hdone ht
  exact ⟨rfl, htnpx.trans hnpx⟩

/-- A decode in ERROR has ended, however many steps were allowed (60_exceptions.md R240). -/
theorem endsWithin_of_error {s : State} (hp : s.phase = .error) (n : Nat) : s.EndsWithin n :=
  ⟨0, s, Nat.zero_le n, rfl, .inr hp, by simp [hp]⟩

/-- From PIXELS on, the steps a decode has left are one for each pixel left and the trailer's. -/
theorem State.Inv.stepsLeft_eq {s : State} (h : s.Inv) (hp : s.phase = .pixels ∨ s.phase = .trailer) :
    s.stepsLeft = s.npx.toNat - s.pos.toNat + 1 := by
  obtain hp | hp := hp
  · simp [State.stepsLeft, hp]
  · simp [State.stepsLeft, hp, h.after (.inl hp)]

/-- When a header has passed, a step is left for each of its pixels and one for the trailer. -/
theorem stepsLeft_latchHeader (w h : Word) (ch cs : Byte) (s : State) :
    (latchHeader w h ch cs s).stepsLeft = (latchHeader w h ch cs s).npx.toNat + 1 := by
  simp [State.stepsLeft]

/-- From PIXELS on a decode ends within the steps it has left (70_reset_and_hazards.md R267): induction on their
number. -/
theorem endsWithin_stepsLeft {s : State} (h : s.Inv) (hc : s.cmd = none)
    (hp : s.phase = .pixels ∨ s.phase = .trailer) : s.EndsWithin s.stepsLeft := by
  induction hn : s.stepsLeft generalizing s with
  | zero => simp [h.stepsLeft_eq hp] at hn
  | succ n ih =>
    have hleft := (h.stepsLeft_eq hp).symm.trans hn
    obtain ⟨t, hstep⟩ := everyStreamIsAnswered s h hc (.inr hp)
    have hd := decoderStep_of_step hc hstep
    have hinv := hd.inv h
    have hcmd := hd.cmd_eq.trans hc
    cases hd with
    | raised e => exact .of_step hstep (raise_npx e s) (endsWithin_of_error (raise_phase e s) n)
    | header cs hheader => simp [hheader] at hp
    | pixel hpixels =>
      obtain ⟨_, hpixel⟩ := everyPixelStepCommitsItsPixel s _ h hc hpixels hstep (by simp)
      have hbefore := h.before hpixels
      refine .of_step hstep rfl (ih hinv hcmd hpixel.phase_or ?_)
      rw [hinv.stepsLeft_eq hpixel.phase_or, hpixel.position, hpixel.header.npx]
      omega
    | trailer htrailer =>
      obtain rfl : n = 0 := by have := h.after (.inl htrailer); omega
      exact .of_step hstep rfl ⟨0, _, le_rfl, rfl, .inl rfl, fun _ => ⟨rfl, rfl⟩⟩

/-- Settles O57: a header that passes latches fewer than `PIXELS_MAX` pixels and leaves a step for each and one more;
one that fails ends the decode at once. -/
theorem everyDecodeEnds : Obligations.EveryDecodeEnds := by
  intro s h hc hd
  obtain hp | hp := hd
  · obtain ⟨u, hstep⟩ := everyStreamIsAnswered s h hc (.inl hp)
    have hd := decoderStep_of_step hc hstep
    have hinv := hd.inv h
    cases hd with
    | raised e =>
      exact ⟨1, _, by simp [State.stepsLeft, hp], steps_succ_of_step rfl hstep, .inr (raise_phase e s), by simp⟩
    | header cs _ hcheck =>
      obtain ⟨k, t, hk, hsteps, hover, hdone⟩ := endsWithin_stepsLeft hinv hc (.inl rfl)
      rw [stepsLeft_latchHeader] at hk hdone
      have hfew := (latched_latchHeader cs h.cfg (headerError_eq_none_iff.1 hcheck)).npxBounds.2
      rw [latchHeader_cfg] at hfew
      refine ⟨k + 1, t, ?_, by rw [steps, hstep]; exact hsteps, hover, fun ht => ⟨fun _ => ?_, by simp [hp]⟩⟩
      · simp only [State.stepsLeft, hp]
        omega
      · obtain ⟨rfl, hnpx⟩ := hdone ht
        rw [hnpx]
    | pixel hpixels => simp [hp] at hpixels
    | trailer htrailer => simp [hp] at htrailer
  · obtain ⟨k, t, hk, hsteps, hover, hdone⟩ := endsWithin_stepsLeft h hc hp
    refine ⟨k, t, hk, hsteps, hover, fun ht => ?_⟩
    obtain ⟨rfl, hnpx⟩ := hdone ht
    rw [hnpx, ← h.stepsLeft_eq hp]
    exact ⟨fun hheader => by simp [hheader] at hp, fun _ => rfl⟩

end Sys2Proof.Machine
end
